-- ==== Sys2Proof/Word.lean ====
section
/-! DEFINITION. The bit vector widths of the machine (spec/00_scope.md R6, R8, R9). -/

namespace Sys2Proof

/-- A 4-bit field: a register number, a key number, a sprite height (R71). -/
abbrev Nibble := BitVec 4

/-- A byte: a general register, a timer, a memory cell (R20, R27, R31). -/
abbrev Byte := BitVec 8

/-- A 12-bit address immediate (R71, R73). -/
abbrev Addr := BitVec 12

/-- A 16-bit value: `I`, `PC`, a stack slot, an instruction word (R24, R25, R29, R70). -/
abbrev Word := BitVec 16

end Sys2Proof
end

