-- ==== Sys2Proof/Syntax.lean ====
section
/-! DEFINITION. The 34 operations of the opcode map (spec/30_encoding.md R75), one constructor a row, each
with only the operand fields it needs (R74). -/

namespace Sys2Proof

/-- One decoded instruction. `x` and `y` are register numbers, `kk` the 8-bit immediate, `nnn` the 12-bit
address immediate, `n` the 4-bit small immediate (R71). -/
inductive Instr where
  | cls
  | ret
  | jp (nnn : Addr)
  | call (nnn : Addr)
  | seImm (x : Nibble) (kk : Byte)
  | sneImm (x : Nibble) (kk : Byte)
  | seReg (x y : Nibble)
  | ldImm (x : Nibble) (kk : Byte)
  | addImm (x : Nibble) (kk : Byte)
  | mov (x y : Nibble)
  | or (x y : Nibble)
  | and (x y : Nibble)
  | xor (x y : Nibble)
  | addReg (x y : Nibble)
  | sub (x y : Nibble)
  | shr (x y : Nibble)
  | subn (x y : Nibble)
  | shl (x y : Nibble)
  | sneReg (x y : Nibble)
  | ldI (nnn : Addr)
  | jpV0 (nnn : Addr)
  | rnd (x : Nibble) (kk : Byte)
  | drw (x y n : Nibble)
  | skp (x : Nibble)
  | sknp (x : Nibble)
  | ldVxDt (x : Nibble)
  | ldVxK (x : Nibble)
  | ldDtVx (x : Nibble)
  | ldStVx (x : Nibble)
  | addI (x : Nibble)
  | ldF (x : Nibble)
  | ldB (x : Nibble)
  | stRegs (x : Nibble)
  | ldRegs (x : Nibble)
  deriving DecidableEq, Repr

end Sys2Proof
end

