-- ==== Sys2Proof/WellFormed.lean ====
section
/-! DEFINITION. Well-formed instructions: every operand fits the field of the encoding that holds it
(spec/30_encoding.md R73, R85). The operand types of `Instr` have the widths of the fields, so every term of
`Instr` passes (Laws/PerInstr.lean); the check itself is over plain numbers, and refuses those that do not fit. -/

namespace Sys2Proof

/-- A numeral fits a field of `width` bits: "numerals that must fit 8, 12, 4 bits" (R85). -/
def fitsField (width value : Nat) : Bool := decide (value < 2 ^ width)

/-- A list of operands, each a field width and a numeral, fits its fields. -/
def operandsFit (ops : List (Nat × Nat)) : Bool := ops.all fun p => fitsField p.1 p.2

/-- The operands of an instruction in the order of R85, each with the width of its field (R71, R72). -/
def Instr.operands : Instr → List (Nat × Nat)
  | .cls | .ret => []
  | .jp nnn | .call nnn | .ldI nnn | .jpV0 nnn => [(12, nnn.toNat)]
  | .seImm x kk | .sneImm x kk | .ldImm x kk | .addImm x kk | .rnd x kk => [(4, x.toNat), (8, kk.toNat)]
  | .seReg x y | .sneReg x y | .mov x y | .or x y | .and x y | .xor x y => [(4, x.toNat), (4, y.toNat)]
  | .addReg x y | .sub x y | .subn x y | .shr x y | .shl x y => [(4, x.toNat), (4, y.toNat)]
  | .drw x y n => [(4, x.toNat), (4, y.toNat), (4, n.toNat)]
  | .skp x | .sknp x | .ldVxDt x | .ldVxK x | .ldDtVx x | .ldStVx x => [(4, x.toNat)]
  | .addI x | .ldF x | .ldB x | .stRegs x | .ldRegs x => [(4, x.toNat)]

/-- Every operand fits its field. -/
def Instr.wellFormed (i : Instr) : Bool := operandsFit i.operands

end Sys2Proof
end

