-- ==== Sys2Proof/Decode.lean ====
section
/-! DEFINITION. From bits to instructions and back: the field decoder (spec/30_encoding.md R71, R82), the
two-level dispatch decode (R74, R76 to R80), the encoder, and the opcode map as a table of mask and match (R75).
The opcode numerals other than 00E0 are the spec's, from general knowledge (D2, log 7). -/

namespace Sys2Proof

/-! ### Fields (R71) -/

/-- The opcode family, `ins[15:12]`. -/
def fieldOp (w : Word) : Nibble := w.extractLsb' 12 4

/-- Register X, `ins[11:8]`. -/
def fieldX (w : Word) : Nibble := w.extractLsb' 8 4

/-- Register Y, `ins[7:4]`. -/
def fieldY (w : Word) : Nibble := w.extractLsb' 4 4

/-- The 4-bit small immediate, `ins[3:0]`. -/
def fieldN (w : Word) : Nibble := w.extractLsb' 0 4

/-- The 8-bit immediate, `ins[7:0]`. -/
def fieldKK (w : Word) : Byte := w.extractLsb' 0 8

/-- The 12-bit address immediate, `ins[11:0]`. -/
def fieldNNN (w : Word) : Addr := w.extractLsb' 0 12

/-- The 16-bit instruction of two bytes in address order: the byte at the lower address is the high byte
(20_memory.md R56; D26, log 26). -/
def wordOfBytes (hi lo : Byte) : Word := hi ++ lo

/-- The byte of a word that stands at the lower address. -/
def highByte (w : Word) : Byte := w.extractLsb' 8 8

/-- The byte of a word that stands at the higher address. -/
def lowByte (w : Word) : Byte := w.extractLsb' 0 8

/-! ### The decode -/

/-- Why a sequence of bytes is no instruction: it is too short, or its word selects no row, by family (R81). -/
inductive Reject where
  | truncated
  | family0 (ins : Word)
  | family8 (ins : Word)
  | familyE (ins : Word)
  | familyF (ins : Word)
  deriving DecidableEq, Repr

/-- Family 0x0: the selector is the whole of `nnn` (R76; D4, log 9). -/
def decodeFamily0 (w : Word) : Except Reject Instr :=
  if fieldNNN w = 0x0E0#12 then .ok .cls
  else if fieldNNN w = 0x0EE#12 then .ok .ret
  else .error (.family0 w)

/-- Family 0x8: the selector is `n` (R77). -/
def decodeFamily8 (w : Word) : Except Reject Instr :=
  if fieldN w = 0x0#4 then .ok (.mov (fieldX w) (fieldY w))
  else if fieldN w = 0x1#4 then .ok (.or (fieldX w) (fieldY w))
  else if fieldN w = 0x2#4 then .ok (.and (fieldX w) (fieldY w))
  else if fieldN w = 0x3#4 then .ok (.xor (fieldX w) (fieldY w))
  else if fieldN w = 0x4#4 then .ok (.addReg (fieldX w) (fieldY w))
  else if fieldN w = 0x5#4 then .ok (.sub (fieldX w) (fieldY w))
  else if fieldN w = 0x6#4 then .ok (.shr (fieldX w) (fieldY w))
  else if fieldN w = 0x7#4 then .ok (.subn (fieldX w) (fieldY w))
  else if fieldN w = 0xE#4 then .ok (.shl (fieldX w) (fieldY w))
  else .error (.family8 w)

/-- Family 0xE: the selector is `kk` (R78). -/
def decodeFamilyE (w : Word) : Except Reject Instr :=
  if fieldKK w = 0x9E#8 then .ok (.skp (fieldX w))
  else if fieldKK w = 0xA1#8 then .ok (.sknp (fieldX w))
  else .error (.familyE w)

/-- Family 0xF: the selector is `kk` (R79). -/
def decodeFamilyF (w : Word) : Except Reject Instr :=
  if fieldKK w = 0x07#8 then .ok (.ldVxDt (fieldX w))
  else if fieldKK w = 0x0A#8 then .ok (.ldVxK (fieldX w))
  else if fieldKK w = 0x15#8 then .ok (.ldDtVx (fieldX w))
  else if fieldKK w = 0x18#8 then .ok (.ldStVx (fieldX w))
  else if fieldKK w = 0x1E#8 then .ok (.addI (fieldX w))
  else if fieldKK w = 0x29#8 then .ok (.ldF (fieldX w))
  else if fieldKK w = 0x33#8 then .ok (.ldB (fieldX w))
  else if fieldKK w = 0x55#8 then .ok (.stRegs (fieldX w))
  else if fieldKK w = 0x65#8 then .ok (.ldRegs (fieldX w))
  else .error (.familyF w)

/-- The two-level decode of one word: "the top nibble selects a family" (R74). Families 0x5 and 0x9 have no
second level, and their low nibble is ignored (R80; D3, log 8). -/
def decodeWord (w : Word) : Except Reject Instr :=
  if fieldOp w = 0x0#4 then decodeFamily0 w
  else if fieldOp w = 0x1#4 then .ok (.jp (fieldNNN w))
  else if fieldOp w = 0x2#4 then .ok (.call (fieldNNN w))
  else if fieldOp w = 0x3#4 then .ok (.seImm (fieldX w) (fieldKK w))
  else if fieldOp w = 0x4#4 then .ok (.sneImm (fieldX w) (fieldKK w))
  else if fieldOp w = 0x5#4 then .ok (.seReg (fieldX w) (fieldY w))
  else if fieldOp w = 0x6#4 then .ok (.ldImm (fieldX w) (fieldKK w))
  else if fieldOp w = 0x7#4 then .ok (.addImm (fieldX w) (fieldKK w))
  else if fieldOp w = 0x8#4 then decodeFamily8 w
  else if fieldOp w = 0x9#4 then .ok (.sneReg (fieldX w) (fieldY w))
  else if fieldOp w = 0xA#4 then .ok (.ldI (fieldNNN w))
  else if fieldOp w = 0xB#4 then .ok (.jpV0 (fieldNNN w))
  else if fieldOp w = 0xC#4 then .ok (.rnd (fieldX w) (fieldKK w))
  else if fieldOp w = 0xD#4 then .ok (.drw (fieldX w) (fieldY w) (fieldN w))
  else if fieldOp w = 0xE#4 then decodeFamilyE w
  else decodeFamilyF w

/-- The decode of a sequence of bytes: the instruction in its first two bytes and the rest (R70). -/
def decodeBytes : List Byte → Except Reject (Instr × List Byte)
  | hi :: lo :: rest =>
    match decodeWord (wordOfBytes hi lo) with
    | .ok i => .ok (i, rest)
    | .error r => .error r
  | _ => .error .truncated

/-! ### The encoder (R75, R85) -/

/-- The formats of R72, each assembled from its fields. -/
def encNNN (op : Nibble) (nnn : Addr) : Word := op ++ nnn

/-- Format XKK. -/
def encXKK (op x : Nibble) (kk : Byte) : Word := (op ++ x) ++ kk

/-- Formats XY and XYN. -/
def encXYN (op x y n : Nibble) : Word := (op ++ x) ++ (y ++ n)

/-- The word of an instruction, as an assembler emits it: the low nibble of families 0x5 and 0x9 is 0 (R80). -/
def encode : Instr → Word
  | .cls => 0x00E0#16
  | .ret => 0x00EE#16
  | .jp nnn => encNNN 0x1#4 nnn
  | .call nnn => encNNN 0x2#4 nnn
  | .seImm x kk => encXKK 0x3#4 x kk
  | .sneImm x kk => encXKK 0x4#4 x kk
  | .seReg x y => encXYN 0x5#4 x y 0x0#4
  | .ldImm x kk => encXKK 0x6#4 x kk
  | .addImm x kk => encXKK 0x7#4 x kk
  | .mov x y => encXYN 0x8#4 x y 0x0#4
  | .or x y => encXYN 0x8#4 x y 0x1#4
  | .and x y => encXYN 0x8#4 x y 0x2#4
  | .xor x y => encXYN 0x8#4 x y 0x3#4
  | .addReg x y => encXYN 0x8#4 x y 0x4#4
  | .sub x y => encXYN 0x8#4 x y 0x5#4
  | .shr x y => encXYN 0x8#4 x y 0x6#4
  | .subn x y => encXYN 0x8#4 x y 0x7#4
  | .shl x y => encXYN 0x8#4 x y 0xE#4
  | .sneReg x y => encXYN 0x9#4 x y 0x0#4
  | .ldI nnn => encNNN 0xA#4 nnn
  | .jpV0 nnn => encNNN 0xB#4 nnn
  | .rnd x kk => encXKK 0xC#4 x kk
  | .drw x y n => encXYN 0xD#4 x y n
  | .skp x => encXKK 0xE#4 x 0x9E#8
  | .sknp x => encXKK 0xE#4 x 0xA1#8
  | .ldVxDt x => encXKK 0xF#4 x 0x07#8
  | .ldVxK x => encXKK 0xF#4 x 0x0A#8
  | .ldDtVx x => encXKK 0xF#4 x 0x15#8
  | .ldStVx x => encXKK 0xF#4 x 0x18#8
  | .addI x => encXKK 0xF#4 x 0x1E#8
  | .ldF x => encXKK 0xF#4 x 0x29#8
  | .ldB x => encXKK 0xF#4 x 0x33#8
  | .stRegs x => encXKK 0xF#4 x 0x55#8
  | .ldRegs x => encXKK 0xF#4 x 0x65#8

/-- The two bytes of an instruction in address order (R56, R70). -/
def encodeBytes (i : Instr) : List Byte := [highByte (encode i), lowByte (encode i)]

/-! ### The opcode map as the spec prints it (R75) -/

/-- One row of R75: a word `w` selects it when `w &&& mask = pat`, and `build` reads its operands. -/
structure OpcodeRow where
  mnemonic : String
  mask : Word
  pat : Word
  build : Word → Instr

/-- Rows 1 to 9 of R75. -/
def opcodeRowsA : List OpcodeRow :=
  [⟨"CLS", 0xFFFF#16, 0x00E0#16, fun _ => .cls⟩,
   ⟨"RET", 0xFFFF#16, 0x00EE#16, fun _ => .ret⟩,
   ⟨"JP", 0xF000#16, 0x1000#16, fun w => .jp (fieldNNN w)⟩,
   ⟨"CALL", 0xF000#16, 0x2000#16, fun w => .call (fieldNNN w)⟩,
   ⟨"SE_IMM", 0xF000#16, 0x3000#16, fun w => .seImm (fieldX w) (fieldKK w)⟩,
   ⟨"SNE_IMM", 0xF000#16, 0x4000#16, fun w => .sneImm (fieldX w) (fieldKK w)⟩,
   ⟨"SE_REG", 0xF000#16, 0x5000#16, fun w => .seReg (fieldX w) (fieldY w)⟩,
   ⟨"LD_IMM", 0xF000#16, 0x6000#16, fun w => .ldImm (fieldX w) (fieldKK w)⟩,
   ⟨"ADD_IMM", 0xF000#16, 0x7000#16, fun w => .addImm (fieldX w) (fieldKK w)⟩]

/-- Rows 10 to 18 of R75: family 0x8. -/
def opcodeRowsB : List OpcodeRow :=
  [⟨"MOV", 0xF00F#16, 0x8000#16, fun w => .mov (fieldX w) (fieldY w)⟩,
   ⟨"OR", 0xF00F#16, 0x8001#16, fun w => .or (fieldX w) (fieldY w)⟩,
   ⟨"AND", 0xF00F#16, 0x8002#16, fun w => .and (fieldX w) (fieldY w)⟩,
   ⟨"XOR", 0xF00F#16, 0x8003#16, fun w => .xor (fieldX w) (fieldY w)⟩,
   ⟨"ADD_REG", 0xF00F#16, 0x8004#16, fun w => .addReg (fieldX w) (fieldY w)⟩,
   ⟨"SUB", 0xF00F#16, 0x8005#16, fun w => .sub (fieldX w) (fieldY w)⟩,
   ⟨"SHR", 0xF00F#16, 0x8006#16, fun w => .shr (fieldX w) (fieldY w)⟩,
   ⟨"SUBN", 0xF00F#16, 0x8007#16, fun w => .subn (fieldX w) (fieldY w)⟩,
   ⟨"SHL", 0xF00F#16, 0x800E#16, fun w => .shl (fieldX w) (fieldY w)⟩]

/-- Rows 19 to 25 of R75. -/
def opcodeRowsC : List OpcodeRow :=
  [⟨"SNE_REG", 0xF000#16, 0x9000#16, fun w => .sneReg (fieldX w) (fieldY w)⟩,
   ⟨"LD_I", 0xF000#16, 0xA000#16, fun w => .ldI (fieldNNN w)⟩,
   ⟨"JP_V0", 0xF000#16, 0xB000#16, fun w => .jpV0 (fieldNNN w)⟩,
   ⟨"RND", 0xF000#16, 0xC000#16, fun w => .rnd (fieldX w) (fieldKK w)⟩,
   ⟨"DRW", 0xF000#16, 0xD000#16, fun w => .drw (fieldX w) (fieldY w) (fieldN w)⟩,
   ⟨"SKP", 0xF0FF#16, 0xE09E#16, fun w => .skp (fieldX w)⟩,
   ⟨"SKNP", 0xF0FF#16, 0xE0A1#16, fun w => .sknp (fieldX w)⟩]

/-- Rows 26 to 34 of R75: family 0xF. -/
def opcodeRowsD : List OpcodeRow :=
  [⟨"LD_VX_DT", 0xF0FF#16, 0xF007#16, fun w => .ldVxDt (fieldX w)⟩,
   ⟨"LD_VX_K", 0xF0FF#16, 0xF00A#16, fun w => .ldVxK (fieldX w)⟩,
   ⟨"LD_DT_VX", 0xF0FF#16, 0xF015#16, fun w => .ldDtVx (fieldX w)⟩,
   ⟨"LD_ST_VX", 0xF0FF#16, 0xF018#16, fun w => .ldStVx (fieldX w)⟩,
   ⟨"ADD_I", 0xF0FF#16, 0xF01E#16, fun w => .addI (fieldX w)⟩,
   ⟨"LD_F", 0xF0FF#16, 0xF029#16, fun w => .ldF (fieldX w)⟩,
   ⟨"LD_B", 0xF0FF#16, 0xF033#16, fun w => .ldB (fieldX w)⟩,
   ⟨"ST_REGS", 0xF0FF#16, 0xF055#16, fun w => .stRegs (fieldX w)⟩,
   ⟨"LD_REGS", 0xF0FF#16, 0xF065#16, fun w => .ldRegs (fieldX w)⟩]

/-- The 34 rows of R75, in the spec's order. -/
def opcodeTable : List OpcodeRow := opcodeRowsA ++ (opcodeRowsB ++ (opcodeRowsC ++ opcodeRowsD))

/-- "A 16-bit value selects row `r` when `(ins & mask_r) = match_r`" (R75). -/
def OpcodeRow.selects (r : OpcodeRow) (w : Word) : Bool := decide (w &&& r.mask = r.pat)

/-- Two rows have no word in common: some bit both masks fix differs between the two patterns. -/
def OpcodeRow.disjoint (r q : OpcodeRow) : Bool := decide ((r.pat ^^^ q.pat) &&& (r.mask &&& q.mask) ≠ 0#16)

/-! ### The host's table words -/

/-- What the decoder reads from a word numbered as spec/opcode_table.json numbers it: the table gives every row
16 bits in one word, laid out in memory high byte first (R56). -/
def decodeTableWord (nbits w : Nat) : Option Instr :=
  let ins : Word := BitVec.ofNat 16 (w % 2 ^ nbits)
  match decodeBytes [highByte ins, lowByte ins] with
  | .ok (i, _) => some i
  | .error _ => none

end Sys2Proof
end

