-- ==== Sys2Proof/Config.lean ====
section
/-! DEFINITION. Constants of the hardware (spec/00_scope.md R6) and the free values: what the environment
shows on the sampled inputs `RND` and `KEYS`, under no law. -/

namespace Sys2Proof.Config

/-- `RESET_PC` (R6, R37). -/
def resetPc : Word := 0x200#16

/-- `PROG_BASE`, the load address of the program image (R6, R201). -/
def progBase : Nat := 0x200

/-- `MAX_IMAGE`, the longest program image in bytes (R6, R202). -/
def maxImage : Nat := 3584

/-- FREE VALUE. The byte on input `RND` at the `n`-th executed `RND` instruction, where the state lists no
draw for it: a draw under no law (R132, R190; log 2). -/
opaque freeRnd : Nat → Byte

/-- FREE VALUE. The sixteen key levels on input `KEYS` at the `n`-th executed `SKP` or `SKNP`, where the state
lists no sample for it: bit `k` is set when key `k` is held (R188; log 3). -/
opaque freeKeys : Nat → BitVec 16

end Sys2Proof.Config
end

