-- ==== Sys2Proof/Machine/State.lean ====
section
/-! DEFINITION. The state of the machine as plain data (spec/10_state.md), the reasons a step can stop, and the
state after reset. -/

namespace Sys2Proof.Machine

/-- The four fatal errors of R170, with their recorded `info`. An instruction or a `Step` that raises one does NOT
stop the model: it TAKES the fault, a next state whose `STATUS` is `FAULTED` (R176, `State.raise`). The same reasons
are `Host.Outcome.fault` in one place only: a `Step` in status `FAULTED` with no further event listed, which
"changes nothing and has outcome `fault(c, i)` again" (R177, `step`; log 11). That stop is safe: nothing but `Reset`
leaves the status. -/
inductive Fault where
  /-- Code 1. Raised by the dispatch of a `Step` for a word that selects no row of the opcode map (R171); safe. -/
  | decodeFailure (ins : Word)
  /-- Code 2. Raised by `CALL` with 16 entries in use (R172); safe. -/
  | stackOverflow
  /-- Code 3. Raised by `RET` with no entry in use (R173); safe. -/
  | stackUnderflow
  /-- Code 4. Raised by the fetch, `DRW`, `LD_B`, `ST_REGS`, `LD_REGS` and `ADD_I` (R174), with the lowest address
  above 0xFFF the access would have touched (for `ADD_I` the sum); safe. -/
  | outOfRange (addr : Nat)
  deriving DecidableEq, Repr

/-- Why a step has no meaning. -/
inductive Refusal where
  /-- An instruction of the opcode table that has no meaning yet, raised by `exec` only; safe. No arm uses it. -/
  | notModelled (mnemonic : String)
  /-- The environment lists a `Reset` whose image is longer than 3584 bytes: "not a legal event, the model gives it
  no meaning" (R202; log 19). Raised by `deliver`; safe. -/
  | illegalReset (imageLength : Nat)
  deriving DecidableEq, Repr

/-- The run-status latch (R33). -/
inductive Status where
  | running
  | awaitKey (x : Nibble)
  | faulted (f : Fault)
  deriving DecidableEq, Repr

/-- The events of the environment (R5, R186). `Reset` is machine construction plus program load, so it carries the
machine's parameter FONT (R6, R53; log 6) beside the image. A key number above 15 is no event (R185), and no term. -/
inductive Event where
  | step
  | tick
  | keyPress (k : Nibble)
  | reset (font : Vector Byte 80) (image : List Byte)
  deriving DecidableEq, Repr

/-- The environment's side, no state of the core (R35): what it will do and show next, as plain data (log 1 to 3). -/
structure Env where
  /-- The events it issues next, first first; when the list is empty it issues `Step`. -/
  schedule : List Event
  /-- What input `RND` shows at the next executed `RND` instructions, first first (R190). -/
  rndDraws : List Byte
  /-- How many random bytes have been drawn: the argument of the free value past `rndDraws`. -/
  rndCount : Nat
  /-- What input `KEYS` shows at the next executed `SKP` or `SKNP`, first first; bit `k` is key `k` (R188). -/
  keySamples : List (BitVec 16)
  /-- How many key samples have been taken: the argument of the free value past `keySamples`. -/
  keyCount : Nat
  deriving DecidableEq, Repr

/-- Memory: the bytes that differ from what an unlisted address reads as, in rising order of address
(`Memory.wf`; log 25). -/
abbrev Memory := List Host.Cell

/-- The framebuffer, one 64-bit vector a row (R32): column `c` is bit `63 - c`, so that column 0, the left edge, is
the most significant bit (a representation no rule depends on; log 20). -/
abbrev Screen := Vector (BitVec 64) 32

/-- Everything the spec gives the machine (R20 to R36), and the environment's side. -/
structure State where
  /-- `V0` to `VF` (R20). -/
  v : Vector Byte 16
  /-- The index register `I` (R24). -/
  i : Word
  /-- The program counter `PC` (R25). -/
  pc : Word
  /-- The delay timer `DT` (R27). -/
  dt : Byte
  /-- The sound timer `ST` (R28). -/
  st : Byte
  /-- The call-stack slots `STACK[0]` to `STACK[15]` (R29). -/
  stack : Vector Word 16
  /-- `SP`, the number of stack entries in use, 0 to 16 (R29, R30). -/
  sp : Fin 17
  /-- `MEM` (R31). -/
  mem : Memory
  /-- `FB` (R32). -/
  fb : Screen
  /-- `STATUS` (R33). -/
  status : Status
  /-- The environment's side (R35). -/
  env : Env
  deriving DecidableEq, Repr

/-- An environment that lists nothing: it issues `Step` only, and every sample is a free value (log 28). -/
def Env.silent : Env :=
  { schedule := [], rndDraws := [], rndCount := 0, keySamples := [], keyCount := 0 }

/-- The state after `Reset` of the empty image with the default FONT (R37, R200): `PC` at 0x200, everything else zero
(the spec's decisions D7 and D8, log 4 and log 5), the font in memory, `STATUS` `RUNNING`. -/
def State.reset : State :=
  { v := Vector.replicate 16 0#8
    i := 0#16
    pc := Config.resetPc
    dt := 0#8
    st := 0#8
    stack := Vector.replicate 16 0#16
    sp := 0
    mem := []
    fb := Vector.replicate 32 0#64
    status := .running
    env := Env.silent }

end Sys2Proof.Machine
end

