-- ==== Sys2Proof/Machine/Ops.lean ====
section
/-! DEFINITION. The named operations over memory, registers, the stack and the inputs, and taking a fault
(spec/20_memory.md, spec/40_control_flow.md R109 to R111, spec/60_exceptions.md R176, R188, R190). -/

namespace Sys2Proof.Machine

/-- The outcome of a step or of a meaning. -/
abbrev Out := Host.Outcome State Fault Refusal

/-! ### Setting one field -/

/-- `V[x]` (R20). -/
def State.getV (s : State) (x : Nibble) : Byte := s.v[x.toNat]'x.isLt

/-- `V[x] <- b`. -/
def State.setV (s : State) (x : Nibble) (b : Byte) : State := { s with v := s.v.set x.toNat b x.isLt }

/-- The register file as a whole. -/
def State.setRegs (s : State) (v : Vector Byte 16) : State := { s with v := v }

/-- `I <- w`. -/
def State.setI (s : State) (w : Word) : State := { s with i := w }

/-- `PC <- w`. -/
def State.setPc (s : State) (w : Word) : State := { s with pc := w }

/-- `DT <- b`. -/
def State.setDt (s : State) (b : Byte) : State := { s with dt := b }

/-- `ST <- b`. -/
def State.setSt (s : State) (b : Byte) : State := { s with st := b }

/-- The call stack: slots and count. -/
def State.setStack (s : State) (stack : Vector Word 16) (sp : Fin 17) : State :=
  { s with stack := stack, sp := sp }

/-- `MEM`. -/
def State.setMem (s : State) (m : Memory) : State := { s with mem := m }

/-- `FB`. -/
def State.setFb (s : State) (fb : Screen) : State := { s with fb := fb }

/-- `STATUS <- st`. -/
def State.setStatus (s : State) (status : Status) : State := { s with status := status }

/-- The environment's side. -/
def State.setEnv (s : State) (env : Env) : State := { s with env := env }

/-! ### Memory -/

/-- The default FONT, one row of five bytes a glyph (R53; from general knowledge, D5, log 6). -/
def fontRows : List (List Byte) :=
  [[0xF0#8, 0x90#8, 0x90#8, 0x90#8, 0xF0#8], [0x20#8, 0x60#8, 0x20#8, 0x20#8, 0x70#8],
   [0xF0#8, 0x10#8, 0xF0#8, 0x80#8, 0xF0#8], [0xF0#8, 0x10#8, 0xF0#8, 0x10#8, 0xF0#8],
   [0x90#8, 0x90#8, 0xF0#8, 0x10#8, 0x10#8], [0xF0#8, 0x80#8, 0xF0#8, 0x10#8, 0xF0#8],
   [0xF0#8, 0x80#8, 0xF0#8, 0x90#8, 0xF0#8], [0xF0#8, 0x10#8, 0x20#8, 0x40#8, 0x40#8],
   [0xF0#8, 0x90#8, 0xF0#8, 0x90#8, 0xF0#8], [0xF0#8, 0x90#8, 0xF0#8, 0x10#8, 0xF0#8],
   [0xF0#8, 0x90#8, 0xF0#8, 0x90#8, 0x90#8], [0xE0#8, 0x90#8, 0xE0#8, 0x90#8, 0xE0#8],
   [0xF0#8, 0x80#8, 0x80#8, 0x80#8, 0xF0#8], [0xE0#8, 0x90#8, 0x90#8, 0x90#8, 0xE0#8],
   [0xF0#8, 0x80#8, 0xF0#8, 0x80#8, 0xF0#8], [0xF0#8, 0x80#8, 0xF0#8, 0x80#8, 0x80#8]]

/-- Byte `j` of the default FONT: row `j / 5`, byte `j mod 5` of it (R52, R53). -/
def fontByte (j : Nat) : Byte := ((fontRows[j / 5]?.getD [])[j % 5]?).getD 0#8

/-- What an unlisted address reads as: the reset contents of R37, the default FONT at 0x000 to 0x04F and zero
everywhere else (log 5, log 6). -/
def Memory.resetByte (a : Nat) : Byte := if a < 80 then fontByte a else 0#8

/-- The byte at address `a`. -/
def Memory.read : Memory → Nat → Byte
  | [], a => Memory.resetByte a
  | (k, b) :: rest, a => if k = a then b else Memory.read rest a

/-- `m` with `b` at the front at address `a`, unless that is what the address reads as unlisted. -/
def Memory.put (m : Memory) (a : Nat) (b : Byte) : Memory :=
  if b = Memory.resetByte a then m else (a, b) :: m

/-- `MEM[a] <- b`, keeping the canonical form. -/
def Memory.write : Memory → Nat → Byte → Memory
  | [], a, b => Memory.put [] a b
  | (k, c) :: rest, a, b =>
    if a < k then Memory.put ((k, c) :: rest) a b
    else if a = k then Memory.put rest a b
    else (k, c) :: Memory.write rest a b

/-- The canonical form from address `lo` on: addresses rise strictly, none is above 0xFFF, and no entry equals what
its address reads as unlisted. -/
def Memory.wfFrom : Nat → Memory → Bool
  | _, [] => true
  | lo, (k, b) :: rest =>
    decide (lo ≤ k) && decide (k ≤ 0xFFF) && decide (b ≠ Memory.resetByte k) && Memory.wfFrom (k + 1) rest

/-- The canonical form of memory. -/
def Memory.wf (m : Memory) : Bool := Memory.wfFrom 0 m

/-- The `n` bytes at `a`, `a + 1`, ... in ascending order (R57). -/
def Memory.readBytes (m : Memory) : Nat → Nat → List Byte
  | _, 0 => []
  | a, n + 1 => m.read a :: m.readBytes (a + 1) n

/-- The given bytes stored at `a`, `a + 1`, ... in ascending order (R57). -/
def Memory.writeBytes : Memory → Nat → List Byte → Memory
  | m, _, [] => m
  | m, a, b :: bs => Memory.writeBytes (m.write a b) (a + 1) bs

/-- The range check of an access to the `n` bytes from `base` (R54, R55, R59): it fails when one of them is above
0xFFF, with the lowest such address, `max(base, 0x1000)`. An access to no byte never fails (R152). -/
def rangeFault (base n : Nat) : Option Fault :=
  if n = 0 ∨ base + n ≤ 0x1000 then none else some (.outOfRange (max base 0x1000))

/-- `MemRead` of `n` bytes from `base`, the whole range checked before any is used (R54, R145, R152; D11, log 12). -/
def readChecked (m : Memory) (base n : Nat) : Except Fault (List Byte) :=
  match rangeFault base n with
  | some f => .error f
  | none => .ok (m.readBytes base n)

/-- `MemWrite` of the given bytes from `base`, the whole range checked before any is written (R55, R143, R144; D11,
log 12). -/
def writeChecked (m : Memory) (base : Nat) (bs : List Byte) : Except Fault Memory :=
  match rangeFault base bs.length with
  | some f => .error f
  | none => .ok (m.writeBytes base bs)

/-- `MemRead(addr, 2)`, the fetch's access: the byte at the lower address is the high byte (R54, R56). -/
def memRead2 (m : Memory) (addr : Nat) : Except Fault Word :=
  match rangeFault addr 2 with
  | some f => .error f
  | none => .ok (wordOfBytes (m.read addr) (m.read (addr + 1)))

/-! ### Program counter (R26, R111) -/

/-- `PC <- PC + 2`: the advance of a `Step` (R100). -/
def State.advance (s : State) : State := s.setPc (s.pc + 2#16)

/-- `Skip()` when the condition holds (R111). -/
def State.skipIf (s : State) (c : Bool) : State := s.setPc (if c then s.pc + 2#16 else s.pc)

/-! ### Call stack (R29, R109, R110) -/

/-- `Push(w)`: no state when 16 entries are in use. -/
def State.push (s : State) (w : Word) : Option State :=
  if h : s.sp.val < 16 then some (s.setStack (s.stack.set s.sp.val w h) ⟨s.sp.val + 1, Nat.succ_lt_succ h⟩)
  else none

/-- The count after a pop. -/
def spPred (sp : Fin 17) : Fin 17 := ⟨sp.val - 1, Nat.lt_of_le_of_lt (Nat.sub_le _ _) sp.isLt⟩

/-- `Pop()`: the word last pushed and the state after; none when no entry is in use. -/
def State.pop (s : State) : Option (Word × State) :=
  if s.sp.val = 0 then none
  else some (s.stack[s.sp.val - 1]?.getD 0#16, s.setStack s.stack (spPred s.sp))

/-! ### Taking a fault (R176) -/

/-- Fault entry: `s` is the state before the writes of the event but with the kept `PC` advance, so every other
write is discarded, and `STATUS <- FAULTED(f)`. There is no handler, no saved register, and no return (R178): nothing
but `Reset` leaves the status. -/
def State.raise (s : State) (f : Fault) : Out := .next (s.setStatus (.faulted f))

/-- The code of a fault (R170; D9). -/
def Fault.code : Fault → Nat
  | .decodeFailure _ => 1
  | .stackOverflow => 2
  | .stackUnderflow => 3
  | .outOfRange _ => 4

/-- The recorded `info` of a fault (R170; D9). -/
def Fault.info : Fault → Option Nat
  | .decodeFailure ins => some ins.toNat
  | .stackOverflow => none
  | .stackUnderflow => none
  | .outOfRange a => some a

/-! ### Sampled inputs (R188, R190) -/

/-- The byte input `RND` shows now: the next listed draw, or else a free value (log 2). -/
def State.rndByte (s : State) : Byte :=
  match s.env.rndDraws with
  | b :: _ => b
  | [] => Config.freeRnd s.env.rndCount

/-- `RND` has been sampled once. -/
def State.rndTaken (s : State) : State :=
  s.setEnv { s.env with rndDraws := s.env.rndDraws.tail, rndCount := s.env.rndCount + 1 }

/-- The sixteen levels input `KEYS` shows now: the next listed sample, or else a free value (log 3). -/
def State.keyLevels (s : State) : BitVec 16 :=
  match s.env.keySamples with
  | ks :: _ => ks
  | [] => Config.freeKeys s.env.keyCount

/-- `KEYS` has been sampled once. -/
def State.keysTaken (s : State) : State :=
  s.setEnv { s.env with keySamples := s.env.keySamples.tail, keyCount := s.env.keyCount + 1 }

/-- `KeyDown(k)`: input bit `KEYS[k]` (R188). -/
def State.keyDown (s : State) (k : Nibble) : Bool := s.keyLevels.getLsbD k.toNat

/-! ### Framebuffer -/

/-- Row `r` of the framebuffer; rows run from 0 to 31 (R32). -/
def Screen.row (fb : Screen) (r : Nat) : BitVec 64 := fb[r]?.getD 0#64

/-- `FB[r][c]` (R32, R150): column 0 is the left edge. -/
def Screen.pixel (fb : Screen) (r c : Nat) : Bool := (Screen.row fb r).getMsbD c

/-- Row `r` replaced. -/
def Screen.setRow (fb : Screen) (r : Nat) (w : BitVec 64) : Screen := fb.setIfInBounds r w

end Sys2Proof.Machine
end

