-- ==== Sys2Proof/Machine/Operands.lean ====
section
/-! DEFINITION. The operand forms: zero extension, the values an instruction computes from its operands, and the
register block (spec/30_encoding.md R73, spec/42_index_memory.md, spec/44_timers_input.md R166). -/

namespace Sys2Proof.Machine

/-- `zext_16` of an address immediate (R9, R73). -/
def zextAddr (nnn : Addr) : Word := nnn.setWidth 16

/-- `zext_16` of a byte (R9). -/
def zextByte (b : Byte) : Word := b.setWidth 16

/-- `zext_8` of a key number (R166). -/
def zextKey (k : Nibble) : Byte := k.setWidth 8

/-- The key number a register names: its low nibble (R166). -/
def keyOf (b : Byte) : Nibble := b.extractLsb' 0 4

/-- The target of `JP_V0`: `nnn + V0` as a 16-bit sum (R108). -/
def offsetTarget (nnn : Addr) (v0 : Byte) : Word := zextAddr nnn + zextByte v0

/-- The glyph address of a register value, the whole byte times 5 (R142; D22, log 27). -/
def glyphAddr (b : Byte) : Word := zextByte b * 5#16

/-- The hundreds, tens and ones digits of a byte, each a whole byte (R143). -/
def bcdDigits (b : Byte) : List Byte :=
  [BitVec.ofNat 8 (b.toNat / 100), BitVec.ofNat 8 (b.toNat / 10 % 10), BitVec.ofNat 8 (b.toNat % 10)]

/-- `V0` to `V[x]`, the block `ST_REGS` stores (R144). -/
def State.regBlock (s : State) (x : Nibble) : List Byte := s.v.toList.take (x.toNat + 1)

/-- The registers from number `k` on take the given bytes in ascending order (R145). -/
def loadRegs : Vector Byte 16 → Nat → List Byte → Vector Byte 16
  | v, _, [] => v
  | v, k, b :: bs => loadRegs (v.setIfInBounds k b) (k + 1) bs

end Sys2Proof.Machine
end

