-- ==== Sys2Proof/Machine/Flags.lean ====
section
/-! DEFINITION. The flag computations, all written to `VF` (spec/10_state.md R21, R22, spec/41_alu.md R120). -/

namespace Sys2Proof.Machine

/-- A flag as the full byte 0x00 or 0x01 (R120). -/
def flagByte (c : Bool) : Byte := if c then 0x01#8 else 0x00#8

/-- Carry out of bit 7 of `a + b` (R120, R127). -/
def carryOf (a b : Byte) : Bool := decide (256 ≤ a.toNat + b.toNat)

/-- No borrow in `a - b` (R120, R128, R129). -/
def noBorrowOf (a b : Byte) : Bool := decide (b.toNat ≤ a.toNat)

/-- The bit a right shift by 1 shifts out (R130). -/
def shrOutOf (b : Byte) : Bool := b.getLsbD 0

/-- The bit a left shift by 1 shifts out (R131). -/
def shlOutOf (b : Byte) : Bool := b.getLsbD 7

/-- `VF <- flag`. -/
def State.setFlag (s : State) (c : Bool) : State := s.setV 0xF#4 (flagByte c)

/-- The primary result first, the flag second, so that with `X = 15` the flag stays (R22). -/
def State.setVFlag (s : State) (x : Nibble) (b : Byte) (c : Bool) : State := (s.setV x b).setFlag c

end Sys2Proof.Machine
end

