-- ==== Sys2Proof/Machine/Alu.lean ====
section
/-! DEFINITION. The ALU and register instructions (spec/41_alu.md R121 to R132). -/

namespace Sys2Proof.Machine

/-- `LD_IMM Vx, kk` (R121). -/
def execLdImm (x : Nibble) (kk : Byte) (s : State) : Out := .next (s.setV x kk)

/-- `ADD_IMM Vx, kk`: wraps, no flag (R122). -/
def execAddImm (x : Nibble) (kk : Byte) (s : State) : Out := .next (s.setV x (s.getV x + kk))

/-- `MOV Vx, Vy` (R123). -/
def execMov (x y : Nibble) (s : State) : Out := .next (s.setV x (s.getV y))

/-- `OR Vx, Vy`: no flag (R124). -/
def execOr (x y : Nibble) (s : State) : Out := .next (s.setV x (s.getV x ||| s.getV y))

/-- `AND Vx, Vy`: no flag (R125). -/
def execAnd (x y : Nibble) (s : State) : Out := .next (s.setV x (s.getV x &&& s.getV y))

/-- `XOR Vx, Vy`: no flag (R126). -/
def execXor (x y : Nibble) (s : State) : Out := .next (s.setV x (s.getV x ^^^ s.getV y))

/-- `ADD_REG Vx, Vy`: `VF` is the carry (R127). -/
def execAddReg (x y : Nibble) (s : State) : Out :=
  .next (s.setVFlag x (s.getV x + s.getV y) (carryOf (s.getV x) (s.getV y)))

/-- `SUB Vx, Vy`: `V[x] - V[y]`, `VF` set when there is no borrow (R128). -/
def execSub (x y : Nibble) (s : State) : Out :=
  .next (s.setVFlag x (s.getV x - s.getV y) (noBorrowOf (s.getV x) (s.getV y)))

/-- `SHR Vx, Vy`: the source is `V[y]` (R130, R87). -/
def execShr (x y : Nibble) (s : State) : Out :=
  .next (s.setVFlag x (s.getV y >>> 1) (shrOutOf (s.getV y)))

/-- `SUBN Vx, Vy`: `V[y] - V[x]`, `VF` set when there is no borrow (R129). -/
def execSubn (x y : Nibble) (s : State) : Out :=
  .next (s.setVFlag x (s.getV y - s.getV x) (noBorrowOf (s.getV y) (s.getV x)))

/-- `SHL Vx, Vy`: the source is `V[y]` (R131, R87). -/
def execShl (x y : Nibble) (s : State) : Out :=
  .next (s.setVFlag x (s.getV y <<< 1) (shlOutOf (s.getV y)))

/-- `RND Vx, kk`: one sample of input `RND` (R132, R190). -/
def execRnd (x : Nibble) (kk : Byte) (s : State) : Out := .next (s.rndTaken.setV x (s.rndByte &&& kk))

end Sys2Proof.Machine
end

