-- ==== Sys2Proof/Machine/ControlFlow.lean ====
section
/-! DEFINITION. The control-transfer instructions (spec/40_control_flow.md R101 to R108). `PC` already holds the
address of the instruction that follows (R100). -/

namespace Sys2Proof.Machine

/-- `RET` (R101). -/
def execRet (s : State) : Out :=
  match s.pop with
  | none => s.raise .stackUnderflow
  | some (w, s') => .next (s'.setPc w)

/-- `JP nnn` (R102). -/
def execJp (nnn : Addr) (s : State) : Out := .next (s.setPc (zextAddr nnn))

/-- `CALL nnn` (R103). -/
def execCall (nnn : Addr) (s : State) : Out :=
  match s.push s.pc with
  | none => s.raise .stackOverflow
  | some s' => .next (s'.setPc (zextAddr nnn))

/-- `SE_IMM Vx, kk` (R104). -/
def execSeImm (x : Nibble) (kk : Byte) (s : State) : Out := .next (s.skipIf (decide (s.getV x = kk)))

/-- `SNE_IMM Vx, kk` (R105). -/
def execSneImm (x : Nibble) (kk : Byte) (s : State) : Out := .next (s.skipIf (decide (s.getV x ≠ kk)))

/-- `SE_REG Vx, Vy` (R106). -/
def execSeReg (x y : Nibble) (s : State) : Out := .next (s.skipIf (decide (s.getV x = s.getV y)))

/-- `SNE_REG Vx, Vy` (R107). -/
def execSneReg (x y : Nibble) (s : State) : Out := .next (s.skipIf (decide (s.getV x ≠ s.getV y)))

/-- `JP_V0 nnn` (R108). -/
def execJpV0 (nnn : Addr) (s : State) : Out := .next (s.setPc (offsetTarget nnn (s.getV 0x0#4)))

end Sys2Proof.Machine
end

