-- ==== Sys2Proof/Machine/Display.lean ====
section
/-! DEFINITION. The framebuffer instructions and the XOR-sprite blitter (spec/43_display.md R150 to R155). -/

namespace Sys2Proof.Machine

/-- The 64-bit row pattern of sprite byte `b` at starting column `x0`: the byte at the left edge, bit 7 leftmost
(D6, log 10), rotated circularly to the right by `x0` (R153). -/
def rowPattern (b x0 : Byte) : BitVec 64 := (b ++ 0#56 : BitVec 64).rotateRight (x0.toNat % 64)

/-- The sprite bytes drawn from row `r` down: the framebuffer after, and whether a set pixel was turned off. A row
index above 31 stops the drawing (R154; D15, log 15). -/
def drawRows : Screen → Byte → Nat → List Byte → Screen × Bool
  | fb, _, _, [] => (fb, false)
  | fb, x0, r, b :: bs =>
    if 31 < r then (fb, false)
    else
      let old := Screen.row fb r
      let pat := rowPattern b x0
      let below := drawRows (Screen.setRow fb r (old ^^^ pat)) x0 (r + 1) bs
      (below.1, decide (old &&& pat ≠ 0#64) || below.2)

/-- `CLS` (R151). -/
def execCls (s : State) : Out := .next (s.setFb (Vector.replicate 32 0#64))

/-- `DRW Vx, Vy, n` (R152): all `n` bytes are read first, clipped rows included (D14, log 14), then the rows are
drawn, then `VF` takes the collision. -/
def execDrw (x y n : Nibble) (s : State) : Out :=
  match readChecked s.mem s.i.toNat n.toNat with
  | .error f => s.raise f
  | .ok sprite =>
    let drawn := drawRows s.fb (s.getV x) (s.getV y).toNat sprite
    .next ((s.setFb drawn.1).setFlag drawn.2)

end Sys2Proof.Machine
end

