-- ==== Sys2Proof/Machine/IndexMemory.lean ====
section
/-! DEFINITION. The index register and memory instructions (spec/42_index_memory.md R140 to R146). None that uses
`I` as an address changes it (R146). -/

namespace Sys2Proof.Machine

/-- `LD_I nnn` (R140). -/
def execLdI (nnn : Addr) (s : State) : Out := .next (s.setI (zextAddr nnn))

/-- `ADD_I Vx`: any sum that fits 16 bits is stored, a greater one is `OutOfRange` (R141; D12, log 13). -/
def execAddI (x : Nibble) (s : State) : Out :=
  if s.i.toNat + (s.getV x).toNat ≤ 0xFFFF then .next (s.setI (s.i + zextByte (s.getV x)))
  else s.raise (.outOfRange (s.i.toNat + (s.getV x).toNat))

/-- `LD_F Vx` (R142). -/
def execLdF (x : Nibble) (s : State) : Out := .next (s.setI (glyphAddr (s.getV x)))

/-- `LD_B Vx` (R143). -/
def execLdB (x : Nibble) (s : State) : Out :=
  match writeChecked s.mem s.i.toNat (bcdDigits (s.getV x)) with
  | .error f => s.raise f
  | .ok m => .next (s.setMem m)

/-- `ST_REGS Vx` (R144). -/
def execStRegs (x : Nibble) (s : State) : Out :=
  match writeChecked s.mem s.i.toNat (s.regBlock x) with
  | .error f => s.raise f
  | .ok m => .next (s.setMem m)

/-- `LD_REGS Vx` (R145). -/
def execLdRegs (x : Nibble) (s : State) : Out :=
  match readChecked s.mem s.i.toNat (x.toNat + 1) with
  | .error f => s.raise f
  | .ok bs => .next (s.setRegs (loadRegs s.v 0 bs))

end Sys2Proof.Machine
end

