-- ==== Sys2Proof/Machine/TimersInput.lean ====
section
/-! DEFINITION. The timer and keypad instructions (spec/44_timers_input.md R160 to R166). -/

namespace Sys2Proof.Machine

/-- `LD_VX_DT Vx` (R160). -/
def execLdVxDt (x : Nibble) (s : State) : Out := .next (s.setV x s.dt)

/-- `LD_DT_VX Vx` (R161). -/
def execLdDtVx (x : Nibble) (s : State) : Out := .next (s.setDt (s.getV x))

/-- `LD_ST_VX Vx` (R162). -/
def execLdStVx (x : Nibble) (s : State) : Out := .next (s.setSt (s.getV x))

/-- `SKP Vx`: one sample of input `KEYS` (R163, R166, R188). -/
def execSkp (x : Nibble) (s : State) : Out := .next (s.keysTaken.skipIf (s.keyDown (keyOf (s.getV x))))

/-- `SKNP Vx` (R164). -/
def execSknp (x : Nibble) (s : State) : Out := .next (s.keysTaken.skipIf (!s.keyDown (keyOf (s.getV x))))

/-- `LD_VX_K Vx`: the wait begins; the register is written by the `KeyPress` that ends it (R165, R185; D17, log 16). -/
def execLdVxK (x : Nibble) (s : State) : Out := .next (s.setStatus (.awaitKey x))

end Sys2Proof.Machine
end

