-- ==== Sys2Proof/Machine/Cycle.lean ====
section
/-! DEFINITION. The `Step` event: one fetch-decode-execute cycle (spec/40_control_flow.md R100). -/

namespace Sys2Proof.Machine

/-- The fetch: `MemRead(PC, 2)` (R100, R56). -/
def fetch (s : State) : Except Fault Word := memRead2 s.mem s.pc.toNat

/-- The dispatch of a fetched word, `s` having its `PC` already advanced (R100, R171). -/
def dispatchWord (ins : Word) (s : State) : Out :=
  match decodeWord ins with
  | .ok i => exec i s
  | .error _ => s.raise (.decodeFailure ins)

/-- `Step` (R100): in status `FAULTED` or `AWAIT_KEY` nothing changes; in status `RUNNING` the fetch comes first, and
keeps `PC` where it is when it fails (D13, log 14), then the advance, which every later fault keeps (D11, log 12),
then the dispatch. -/
def stepEvent (s : State) : Out :=
  match s.status with
  | .faulted _ => .next s
  | .awaitKey _ => .next s
  | .running =>
    match fetch s with
    | .error f => s.raise f
    | .ok ins => dispatchWord ins s.advance

end Sys2Proof.Machine
end

