-- ==== Sys2Proof/Machine/Events.lean ====
section
/-! DEFINITION. The other events of the environment, `Tick`, `KeyPress` and `Reset`, the delivery of an event, and
the outputs (spec/60_exceptions.md R183 to R191, spec/70_reset_and_hazards.md R200 to R203). -/

namespace Sys2Proof.Machine

/-- One saturating decrement (R27, R183). -/
def countDown (b : Byte) : Byte := if b = 0#8 then b else b - 1#8

/-- `Tick` (R183, R184, R177). -/
def tick (s : State) : State :=
  match s.status with
  | .running => (s.setDt (countDown s.dt)).setSt (countDown s.st)
  | .awaitKey _ => s
  | .faulted _ => s

/-- `KeyPress(k)` (R185): it ends a wait, and is not remembered otherwise. -/
def keyPress (k : Nibble) (s : State) : State :=
  match s.status with
  | .awaitKey x => (s.setV x (zextKey k)).setStatus .running
  | .running => s
  | .faulted _ => s

/-- The memory after `Reset(image)` with the given FONT (R200, R201). -/
def loadedMemory (font : Vector Byte 80) (image : List Byte) : Memory :=
  Memory.writeBytes (Memory.writeBytes [] 0 font.toList) Config.progBase image

/-- The state after `Reset(image)` with the given FONT (R200), beside an environment; none when the image is longer
than 3584 bytes (R202). -/
def construct (font : Vector Byte 80) (image : List Byte) (env : Env) : Option State :=
  if image.length ≤ Config.maxImage then some ((State.reset.setMem (loadedMemory font image)).setEnv env)
  else none

/-- One event of the environment delivered to the machine (R5, R62). -/
def deliver (e : Event) (s : State) : Out :=
  match e with
  | .step => stepEvent s
  | .tick => .next (tick s)
  | .keyPress k => .next (keyPress k s)
  | .reset font image =>
    match construct font image s.env with
    | some s' => .next s'
    | none => .refused (.illegalReset image.length)

/-- The environment issues `Step` because it lists no other event: in status `FAULTED` nothing can follow any more,
and the outcome `fault(c, i)` ends the run (R177; log 11). -/
def stepUnlisted (s : State) : Out :=
  match s.status with
  | .faulted f => .fault f
  | .running => stepEvent s
  | .awaitKey _ => stepEvent s

/-- The next event: the first of the schedule, or `Step` when none is listed (log 1). -/
def nextEvent (s : State) : Out :=
  match s.env.schedule with
  | [] => stepUnlisted s
  | e :: rest => deliver e (s.setEnv { s.env with schedule := rest })

/-- The outcome of an event (R191). -/
inductive EventOutcome where
  | ok
  | awaitingInput
  | fault (f : Fault)
  deriving DecidableEq, Repr

/-- The outcome is a function of `STATUS` after the event (R191). -/
def State.outcome (s : State) : EventOutcome :=
  match s.status with
  | .running => .ok
  | .awaitKey _ => .awaitingInput
  | .faulted f => .fault f

/-- The instruction is `CLS` or `DRW` (R187). -/
def touchesFb : Instr → Bool
  | .cls | .drw _ _ _ => true
  | .ret | .jp _ | .call _ | .jpV0 _ | .seImm _ _ | .sneImm _ _ | .seReg _ _ | .sneReg _ _ => false
  | .ldImm _ _ | .addImm _ _ | .mov _ _ | .or _ _ | .and _ _ | .xor _ _ | .rnd _ _ => false
  | .addReg _ _ | .sub _ _ | .subn _ _ | .shr _ _ | .shl _ _ => false
  | .ldI _ | .addI _ | .ldF _ | .ldB _ | .stRegs _ | .ldRegs _ => false
  | .skp _ | .sknp _ | .ldVxDt _ | .ldVxK _ | .ldDtVx _ | .ldStVx _ => false

/-- The machine goes on after an outcome: a next state that is not `FAULTED`. -/
def notFaulted : Out → Bool
  | .next s => match s.status with
    | .faulted _ => false
    | _ => true
  | _ => false

/-- The word a `Step` in this state would execute, if it is `RUNNING` and the fetch succeeds. -/
def fetchedInstr (s : State) : Option Instr :=
  match s.status, fetch s with
  | .running, .ok ins => (decodeWord ins).toOption
  | _, _ => none

/-- The notification `fb_touched` of a `Step` from `s`: the executed instruction is `CLS` or `DRW` and did not fault
(R187; log 24). -/
def fbTouched (s : State) : Bool :=
  match fetchedInstr s with
  | some i => touchesFb i && notFaulted (stepEvent s)
  | none => false

end Sys2Proof.Machine
end

