-- ==== Sys2Proof/Machine/Step.lean ====
section
/-! DEFINITION. The step function, and a word placed where the next step fetches. -/

namespace Sys2Proof.Machine

/-- One step of the model: the next event of the environment (spec/20_memory.md R62). With no event listed it is
`Step`, one fetch-decode-execute cycle (R100). -/
def step (s : State) : Host.Outcome State Fault Refusal := nextEvent s

/-- `s` with the instruction of the table word `w` stored at `PC`, high byte first, so that the very next step
fetches and runs it: no other event is listed and the status is `RUNNING`. A `PC` above 0xFFE, at which nothing can
be fetched, is set to the reset `PC` first (log 23). -/
def State.withFetchWord (s : State) (nbits w : Nat) : State :=
  let ins : Word := BitVec.ofNat 16 (w % 2 ^ nbits)
  let pc : Word := if s.pc.toNat ≤ 0xFFE then s.pc else Config.resetPc
  (((s.setPc pc).setMem (s.mem.writeBytes pc.toNat [highByte ins, lowByte ins])).setStatus .running).setEnv
    { s.env with schedule := [] }

end Sys2Proof.Machine
end

