-- ==== Sys2Proof/Safety.lean ====
section
/-! DEFINITION. The terms claims are stated in: what an instruction may change, the invariant of the machine, and
repeated pushes and pops. -/

namespace Sys2Proof.Machine

/-- The parts of the state other than the general registers that a frame lets change. -/
structure Touched where
  i : Bool := false
  pc : Bool := false
  dt : Bool := false
  st : Bool := false
  stack : Bool := false
  mem : Bool := false
  fb : Bool := false
  status : Bool := false
  env : Bool := false

/-- FRAME: from `s` to `t` every register outside `regs` and every part outside `what` is unchanged; memory byte by
byte, the stack as its count and its slots. -/
def ChangesOnly (regs : Nibble → Prop) (what : Touched) (s t : State) : Prop :=
  (∀ r : Nibble, ¬ regs r → t.getV r = s.getV r) ∧
  (what.i = false → t.i = s.i) ∧
  (what.pc = false → t.pc = s.pc) ∧
  (what.dt = false → t.dt = s.dt) ∧
  (what.st = false → t.st = s.st) ∧
  (what.stack = false → t.sp = s.sp ∧ t.stack = s.stack) ∧
  (what.mem = false → ∀ a : Nat, t.mem.read a = s.mem.read a) ∧
  (what.fb = false → t.fb = s.fb) ∧
  (what.status = false → t.status = s.status) ∧
  (what.env = false → t.env = s.env)

/-- No general register. -/
def noReg : Nibble → Prop := fun _ => False

/-- The register `x`. -/
def regIs (x : Nibble) : Nibble → Prop := fun r => r = x

/-- The register `x` and `VF`. -/
def regOrVF (x : Nibble) : Nibble → Prop := fun r => r = x ∨ r = 0xF#4

/-- `MEM[addr .. addr + n - 1]` lies in the 4096-byte space (R59). An empty range always does. -/
def InRange (addr n : Nat) : Prop := n = 0 ∨ addr + n - 1 ≤ 0xFFF

/-- Every word the row's mask and match accept decodes to the instruction the row stands for (R75). -/
def EncodedBy (mask pat : Word) (build : Word → Instr) : Prop :=
  ∀ w : Word, w &&& mask = pat → decodeWord w = .ok (build w)

/-- The status is not `FAULTED`: the premise under which a claim about a program is made (R177). -/
def NotFaulted (s : State) : Prop := ∀ f : Fault, s.status ≠ .faulted f

/-- The word the fetch reads at `PC`: the byte at the lower address is the high byte (R56). -/
def wordAtPc (s : State) : Word := s.mem.read s.pc.toNat ++ s.mem.read (s.pc.toNat + 1)

/-- INVARIANT of the machine: memory is in canonical form, `PC` stays within the bound of R26, and so does every
return address in use. -/
def Inv (s : State) : Prop :=
  s.mem.wf = true ∧
  s.pc.toNat ≤ 0x10FE ∧
  ∀ j : Nat, j < s.sp.val → (s.stack[j]?.getD 0#16).toNat ≤ 0x10FE

/-- Push each word in turn, the head first (R109). -/
def pushAll : List Word → State → Option State
  | [], s => some s
  | w :: ws, s =>
    match s.push w with
    | none => none
    | some s' => pushAll ws s'

/-- Pop `n` times: the words in the order they come (R110). -/
def popMany : Nat → State → Option (List Word × State)
  | 0, s => some ([], s)
  | n + 1, s =>
    match s.pop with
    | none => none
    | some (w, s') =>
      match popMany n s' with
      | none => none
      | some (ws, s'') => some (w :: ws, s'')

/-- Whether the sprite of the `n` bytes at `I` has a 1 at row `r`, column `c`, when it is drawn with starting column
`x0` and starting row `y0`: bit `7 - j` of byte `r - y0`, `j` columns right of `x0 mod 64`, wrapping (R153, R154). -/
def spritePixel (s : State) (x0 y0 n r c : Nat) : Prop :=
  y0 ≤ r ∧ r < y0 + n ∧
  ∃ j : Nat, j < 8 ∧ c = (x0 + j) % 64 ∧ (s.mem.read (s.i.toNat + (r - y0))).getLsbD (7 - j) = true

end Sys2Proof.Machine
end

