-- ==== Sys2Proof/Certificates/Slice0/Obligations.lean ====
section
/-! DEFINITION. The statements for the provers, one def Obligations.<Name> : Prop each, listed in OBLIGATIONS.json. -/

open Sys2Proof Sys2Proof.Machine

/-- At least one word of each of the sixteen families of the opcode map, written out from its encoding (the vectors
V-DEC-1 to V-DEC-10 among them), decodes to its instruction, with every operand; a word of each of the families
0, 8, E and F that selects no row is rejected by name. The opcode numerals are the spec's decision D2 (log 7),
the ignored low nibble of families 5 and 9 its decision D3 (log 8), the rejection of 0x0123 its decision D4 (log
9). Derived from 30_encoding.md section 2, rules R75 to R81; 95_test_vectors.md section 2.1. -/
def Obligations.DecodeSampleWords : Prop :=
  decodeWord 0x00E0#16 = .ok .cls ∧
  decodeWord 0x00EE#16 = .ok .ret ∧
  decodeWord 0x1000#16 = .ok (.jp 0x000#12) ∧
  decodeWord 0x2ABC#16 = .ok (.call 0xABC#12) ∧
  decodeWord 0x3A55#16 = .ok (.seImm 0xA#4 0x55#8) ∧
  decodeWord 0x4A55#16 = .ok (.sneImm 0xA#4 0x55#8) ∧
  decodeWord 0x5121#16 = .ok (.seReg 0x1#4 0x2#4) ∧
  decodeWord 0x61AB#16 = .ok (.ldImm 0x1#4 0xAB#8) ∧
  decodeWord 0x71FF#16 = .ok (.addImm 0x1#4 0xFF#8) ∧
  decodeWord 0x8AB4#16 = .ok (.addReg 0xA#4 0xB#4) ∧
  decodeWord 0x912F#16 = .ok (.sneReg 0x1#4 0x2#4) ∧
  decodeWord 0xA300#16 = .ok (.ldI 0x300#12) ∧
  decodeWord 0xBFFF#16 = .ok (.jpV0 0xFFF#12) ∧
  decodeWord 0xCF00#16 = .ok (.rnd 0xF#4 0x00#8) ∧
  decodeWord 0xD123#16 = .ok (.drw 0x1#4 0x2#4 0x3#4) ∧
  decodeWord 0xE19E#16 = .ok (.skp 0x1#4) ∧
  decodeWord 0xFF65#16 = .ok (.ldRegs 0xF#4) ∧
  decodeWord 0x0123#16 = .error (.family0 0x0123#16) ∧
  decodeWord 0x8008#16 = .error (.family8 0x8008#16) ∧
  decodeWord 0xE09F#16 = .error (.familyE 0xE09F#16) ∧
  decodeWord 0xF0FF#16 = .error (.familyF 0xF0FF#16)

/-- For every well-formed instruction i and every following bytes, decoding the two bytes of encode i followed by
those bytes gives i and leaves exactly those bytes. Derived from 30_encoding.md section 2, R70 to R80;
20_memory.md section 3, R56. -/
def Obligations.DecodeOfEncodeIsIdentity : Prop :=
  ∀ (i : Instr) (rest : List Byte), i.wellFormed = true →
    decodeBytes (encodeBytes i ++ rest) = .ok (i, rest)

/-- If a word decodes to i, then encode i is the word itself, except in families 0x5 and 0x9, where encode i is the
word with its low nibble cleared (the ignored nibble is the spec's decision D3, log 8). Derived from
30_encoding.md section 2, R74 to R80. -/
def Obligations.LegalWordsEncodeBack : Prop :=
  ∀ (w : Word) (i : Instr), decodeWord w = .ok i →
    encode i = if fieldOp w = 0x5#4 ∨ fieldOp w = 0x9#4 then w &&& 0xFFF0#16 else w

/-- The opcode map has 34 rows, pairwise disjoint; a word decodes to an instruction exactly when it selects a row
that builds that instruction, and a word that selects no row is a decode failure. (The numerals and masks are
the spec's decisions D2, D3, D4; log 7, 8, 9.) Derived from 30_encoding.md section 2, R75, R74. -/
def Obligations.OpcodeMapDecidesTheDecode : Prop :=
  opcodeTable.length = 34 ∧
  opcodeTable.Pairwise (fun r q => r.disjoint q = true) ∧
  (∀ (w : Word) (i : Instr), decodeWord w = .ok i ↔ ∃ r ∈ opcodeTable, r.selects w = true ∧ r.build w = i) ∧
  (∀ w : Word, (∀ r ∈ opcodeTable, r.selects w = false) → ∃ e, decodeWord w = .error e)

/-- A word is rejected exactly when it is in family 0 other than 0x00E0 and 0x00EE, or in family 8 with low nibble
8, 9, A, B, C, D or F, or in family E with low byte other than 9E and A1, or in family F with low byte other
than the nine selectors. (The counts of R81 are not stated. The numerals and masks are the spec's decisions D2,
D3, D4; log 7, 8, 9.) Derived from 30_encoding.md section 3, R81; 30_encoding.md section 2, R76 to R79. -/
def Obligations.IllegalWordsAreExactlyThese : Prop :=
  ∀ w : Word, (∃ e, decodeWord w = .error e) ↔
    (w.toNat ≤ 0x0FFF ∧ w ≠ 0x00E0#16 ∧ w ≠ 0x00EE#16) ∨
    (fieldOp w = 0x8#4 ∧ fieldN w ∈ [0x8#4, 0x9#4, 0xA#4, 0xB#4, 0xC#4, 0xD#4, 0xF#4]) ∨
    (fieldOp w = 0xE#4 ∧ fieldKK w ∉ [0x9E#8, 0xA1#8]) ∨
    (fieldOp w = 0xF#4 ∧
      fieldKK w ∉ [0x07#8, 0x0A#8, 0x15#8, 0x18#8, 0x1E#8, 0x29#8, 0x33#8, 0x55#8, 0x65#8])

/-- In status RUNNING, when PC is at most 0xFFE and the word at PC (big-endian) decodes to i: the step, issued as
the environment's listed Step event or because it lists no event, is exec i on the state with PC advanced by 2
(and the Step event taken off the schedule). The schedule is the model's own (log 1). Derived from
40_control_flow.md section 1, R100. -/
def Obligations.StepRunsTheDecodedInstruction : Prop :=
  (∀ (s : State) (i : Instr), s.env.schedule = [] → s.status = .running → s.pc.toNat ≤ 0xFFE →
    decodeWord (wordAtPc s) = .ok i → step s = exec i { s with pc := s.pc + 2#16 }) ∧
  (∀ (s : State) (i : Instr) (rest : List Event), s.env.schedule = .step :: rest → s.status = .running →
    s.pc.toNat ≤ 0xFFE → decodeWord (wordAtPc s) = .ok i →
    step s = exec i { s with pc := s.pc + 2#16, env := { s.env with schedule := rest } })

/-- In status RUNNING with PC above 0xFFE, Step changes only STATUS, to FAULTED(OutOfRange(max(PC, 0x1000))); so
does the step of the model when it lists no event, and when it lists Step first, beside taking that event off
the schedule (the model's own, log 1). That the fetch is range-checked is the spec's decision D13 (log 14).
Derived from 20_memory.md section 4, R59; 60_exceptions.md section 1, R174. -/
def Obligations.FetchBeyondMemoryFaults : Prop :=
  ∀ s : State, s.status = .running → 0xFFE < s.pc.toNat →
    stepEvent s = .next { s with status := .faulted (.outOfRange (max s.pc.toNat 0x1000)) } ∧
    (s.env.schedule = [] →
      step s = .next { s with status := .faulted (.outOfRange (max s.pc.toNat 0x1000)) }) ∧
    (∀ rest : List Event, s.env.schedule = .step :: rest →
      step s = .next { s with status := .faulted (.outOfRange (max s.pc.toNat 0x1000)),
                              env := { s.env with schedule := rest } })

/-- In status RUNNING, when the fetch succeeds and the word at PC selects no row: Step answers the state with PC
advanced by 2 and STATUS FAULTED(DecodeFailure(word)), nothing else changed; the recorded info is the full
16-bit word and the outcome reported is that fault. Formalises R171. -/
def Obligations.IllegalWordFaultsWithItsValue : Prop :=
  ∀ s : State, s.status = .running → s.pc.toNat ≤ 0xFFE →
    (∀ r ∈ opcodeTable, r.selects (wordAtPc s) = false) →
    ∃ t, stepEvent s = .next t ∧
      t = { s with pc := s.pc + 2#16, status := .faulted (.decodeFailure (wordAtPc s)) } ∧
      t.pc.toNat = s.pc.toNat + 2 ∧
      t.outcome = .fault (.decodeFailure (wordAtPc s)) ∧
      (Fault.decodeFailure (wordAtPc s)).info = some (wordAtPc s).toNat

/-- In status FAULTED(f): Step, Tick and KeyPress leave the state as it is and the outcome is fault(f); with no
event listed the step answers that fault; and every step whose next event is not a Reset and that answers a next
state leaves the status FAULTED(f). Absorption is the spec's decision D10; that the run ends there when no event
is listed is the model's (log 11). Derived from 60_exceptions.md section 2, R177. -/
def Obligations.FaultedStatusIsAbsorbing : Prop :=
  ∀ (s : State) (f : Fault), s.status = .faulted f →
    stepEvent s = .next s ∧ tick s = s ∧ (∀ k : Nibble, keyPress k s = s) ∧ s.outcome = .fault f ∧
    (s.env.schedule = [] → step s = .fault f) ∧
    (∀ t : State, step s = .next t → (∀ font image, s.env.schedule.head? ≠ some (.reset font image)) →
      t.status = .faulted f)

/-- In status AWAIT_KEY(x): Step and Tick leave the state as it is, the outcome is awaiting_input, and with no event
listed the step answers the same state. (The latch is the spec's decision D17, log 16.) Derived from
44_timers_input.md section 2, R165; 60_exceptions.md section 4, R184. -/
def Obligations.AwaitKeyFreezesStepAndTick : Prop :=
  ∀ (s : State) (x : Nibble), s.status = .awaitKey x →
    stepEvent s = .next s ∧ tick s = s ∧ s.outcome = .awaitingInput ∧ (s.env.schedule = [] → step s = .next s)

/-- For every instruction and every state exec answers a next state: a fatal error is a next state whose status is
FAULTED, not a stop of the model. Derived from 30_encoding.md section 2, R75; 60_exceptions.md section 1, R170,
R176. -/
def Obligations.EveryInstructionAnswersNext : Prop :=
  ∀ (i : Instr) (s : State), ∃ t, exec i s = .next t

/-- If an instruction, run in a state that is not FAULTED, answers a FAULTED state, then that state is the one
before (with PC already advanced) with STATUS changed and nothing else. (All-or-nothing faults are the spec's
decision D11, log 12.) Derived from 60_exceptions.md section 2, R176. -/
def Obligations.FaultDiscardsEveryWrite : Prop :=
  ∀ (i : Instr) (s t : State) (f : Fault), NotFaulted s → exec i s = .next t → t.status = .faulted f →
    t = { s with status := .faulted f }

/-- If an instruction, run in a state that is not FAULTED, answers FAULTED(f), then it is RET with SP = 0 and f
StackUnderflow, or CALL with SP = 16 and f StackOverflow, or f is OutOfRange with the lowest address above 0xFFF
of the access of DRW (n bytes), LD_B (3 bytes), ST_REGS or LD_REGS (X + 1 bytes) and that access is out of
range, or it is ADD_I and f is OutOfRange of a sum above 0xFFFF. Derived from 60_exceptions.md section 1, R175,
R172, R173, R174. -/
def Obligations.WhichInstructionRaisesWhat : Prop :=
  ∀ (i : Instr) (s t : State) (f : Fault), NotFaulted s → exec i s = .next t → t.status = .faulted f →
    (i = .ret ∧ s.sp.val = 0 ∧ f = .stackUnderflow) ∨
    ((∃ nnn, i = .call nnn) ∧ s.sp.val = 16 ∧ f = .stackOverflow) ∨
    ((∃ x y n, i = .drw x y n ∧ ¬ InRange s.i.toNat n.toNat) ∧ f = .outOfRange (max s.i.toNat 0x1000)) ∨
    ((∃ x, i = .ldB x) ∧ ¬ InRange s.i.toNat 3 ∧ f = .outOfRange (max s.i.toNat 0x1000)) ∨
    ((∃ x, (i = .stRegs x ∨ i = .ldRegs x) ∧ ¬ InRange s.i.toNat (x.toNat + 1)) ∧
      f = .outOfRange (max s.i.toNat 0x1000)) ∨
    (∃ x, i = .addI x ∧ 0xFFFF < s.i.toNat + (s.getV x).toNat ∧
      f = .outOfRange (s.i.toNat + (s.getV x).toNat))

/-- If an instruction leaves PC (already advanced) different, then it is RET, JP, CALL or JP_V0, or one of the six
skips and PC is 2 more. Derived from 10_state.md section 3, R26. -/
def Obligations.OnlyControlTransfersWritePC : Prop :=
  ∀ (i : Instr) (s t : State), exec i s = .next t → t.pc ≠ s.pc →
    i = .ret ∨ (∃ nnn, i = .jp nnn ∨ i = .call nnn ∨ i = .jpV0 nnn) ∨
    (t.pc = s.pc + 2#16 ∧
      ((∃ x kk, i = .seImm x kk ∨ i = .sneImm x kk) ∨ (∃ x y, i = .seReg x y ∨ i = .sneReg x y) ∨
        (∃ x, i = .skp x ∨ i = .sknp x)))

/-- If an instruction leaves I different, it is LD_I, ADD_I or LD_F; in particular ST_REGS, LD_REGS, LD_B and DRW
leave I unchanged. Derived from 10_state.md section 2, R24; 42_index_memory.md section 2, R146. -/
def Obligations.OnlyIndexInstructionsWriteI : Prop :=
  ∀ (i : Instr) (s t : State), exec i s = .next t → t.i ≠ s.i →
    (∃ nnn, i = .ldI nnn) ∨ (∃ x, i = .addI x) ∨ (∃ x, i = .ldF x)

/-- If an instruction leaves some byte of memory reading different, it is LD_B and the byte is one of the three at
I, or ST_REGS and the byte is one of the X + 1 at I. Every instruction but DRW and LD_REGS, run with any other
memory in place, has the same effect on everything but memory. The fetch depends on memory through the two bytes
at PC alone, and Tick and KeyPress leave memory alone. Formalises R61. -/
def Obligations.OnlyFourInstructionsReachMemory : Prop :=
  (∀ (i : Instr) (s t : State) (a : Nat), exec i s = .next t → t.mem.read a ≠ s.mem.read a →
    (∃ x, i = .ldB x ∧ s.i.toNat ≤ a ∧ a < s.i.toNat + 3) ∨
    (∃ x, i = .stRegs x ∧ s.i.toNat ≤ a ∧ a < s.i.toNat + (x.toNat + 1))) ∧
  (∀ (i : Instr) (s t : State) (m : Memory), (∀ x y n, i ≠ .drw x y n) → (∀ x, i ≠ .ldRegs x) →
    exec i s = .next t → ∃ u, exec i { s with mem := m } = .next u ∧ { u with mem := t.mem } = t) ∧
  (∀ (s : State) (m : Memory), m.read s.pc.toNat = s.mem.read s.pc.toNat →
    m.read (s.pc.toNat + 1) = s.mem.read (s.pc.toNat + 1) → fetch { s with mem := m } = fetch s) ∧
  (∀ s : State, (tick s).mem = s.mem) ∧ (∀ (s : State) (k : Nibble), (keyPress k s).mem = s.mem)

/-- ADD_REG, SUB, SUBN, SHR, SHL and DRW (when it does not fault) leave 0 or 1 in VF whatever their operands; any
other instruction that leaves VF different names it as its destination X, or is LD_REGS with X = 15. Derived
from 10_state.md section 1, R21; 70_reset_and_hazards.md section 2, R207. -/
def Obligations.OnlyFlagInstructionsWriteVFUnnamed : Prop :=
  ∀ (i : Instr) (s t : State), NotFaulted s → exec i s = .next t → NotFaulted t →
    if (∃ x y, i = .addReg x y ∨ i = .sub x y ∨ i = .subn x y ∨ i = .shr x y ∨ i = .shl x y) ∨
        (∃ x y n, i = .drw x y n)
    then t.getV 0xF#4 = 0x00#8 ∨ t.getV 0xF#4 = 0x01#8
    else t.getV 0xF#4 ≠ s.getV 0xF#4 →
      (∃ kk, i = .ldImm 0xF#4 kk ∨ i = .addImm 0xF#4 kk ∨ i = .rnd 0xF#4 kk) ∨
      (∃ y, i = .mov 0xF#4 y ∨ i = .or 0xF#4 y ∨ i = .and 0xF#4 y ∨ i = .xor 0xF#4 y) ∨
      i = .ldVxDt 0xF#4 ∨ i = .ldRegs 0xF#4

/-- Only LD_DT_VX changes DT; only LD_ST_VX changes ST; only CALL and RET change SP, and only CALL a slot; only CLS
and DRW change the framebuffer; the status changes only to AWAIT_KEY(x) by LD_VX_K or to FAULTED; only RND, SKP
and SKNP sample an input (the input side is the model's env, log 2 and log 3). Derived from 10_state.md sections
4 to 7, R27 to R33; 60_exceptions.md section 6, R188, R190. -/
def Obligations.WritersOfTimersStackScreenStatusInputs : Prop :=
  ∀ (i : Instr) (s t : State), exec i s = .next t →
    (t.dt ≠ s.dt → ∃ x, i = .ldDtVx x) ∧
    (t.st ≠ s.st → ∃ x, i = .ldStVx x) ∧
    (t.sp ≠ s.sp → i = .ret ∨ ∃ nnn, i = .call nnn) ∧
    (t.stack ≠ s.stack → ∃ nnn, i = .call nnn) ∧
    (t.fb ≠ s.fb → i = .cls ∨ ∃ x y n, i = .drw x y n) ∧
    (t.status ≠ s.status → (∃ x, i = .ldVxK x ∧ t.status = .awaitKey x) ∨ ∃ f, t.status = .faulted f) ∧
    (t.env ≠ s.env → (∃ x kk, i = .rnd x kk) ∨ ∃ x, i = .skp x ∨ i = .sknp x)

/-- When the schedule lists Tick, KeyPress(k) or Step first, the step is that event on the state with the event
taken off the schedule. When it lists Reset first, the step is the state that construct gives for that table and
image with the event taken off, and the refusal illegalReset where construct gives none. When it lists no event,
the step is Step unless the status is FAULTED(f), where it answers the fault f. The schedule is the model's own
(log 1), the end of a faulted run too (log 11); the refusal is the spec's decision D20 (log 19). Derived from
20_memory.md section 5, R62; 60_exceptions.md section 3, R180; 60_exceptions.md section 2, R177;
70_reset_and_hazards.md section 1, R200, R202. -/
def Obligations.ListedEventsHappenInOrder : Prop :=
  (∀ (s : State) (rest : List Event), s.env.schedule = .tick :: rest →
    step s = .next (tick { s with env := { s.env with schedule := rest } })) ∧
  (∀ (s : State) (k : Nibble) (rest : List Event), s.env.schedule = .keyPress k :: rest →
    step s = .next (keyPress k { s with env := { s.env with schedule := rest } })) ∧
  (∀ (s : State) (rest : List Event), s.env.schedule = .step :: rest →
    step s = stepEvent { s with env := { s.env with schedule := rest } }) ∧
  (∀ (s t : State) (font : Vector Byte 80) (image : List Byte) (rest : List Event),
    s.env.schedule = .reset font image :: rest →
    construct font image { s.env with schedule := rest } = some t → step s = .next t) ∧
  (∀ (s : State) (font : Vector Byte 80) (image : List Byte) (rest : List Event),
    s.env.schedule = .reset font image :: rest →
    construct font image { s.env with schedule := rest } = none →
    step s = .refused (.illegalReset image.length)) ∧
  (∀ s : State, s.env.schedule = [] → NotFaulted s → step s = stepEvent s) ∧
  (∀ (s : State) (f : Fault), s.env.schedule = [] → s.status = .faulted f → step s = .fault f)

/-- In status RUNNING a Tick leaves DT and ST each one less, or 0 if it was 0, and changes nothing else; in any
other status it changes nothing. Formalises R183. -/
def Obligations.TickDecrementsBothTimers : Prop :=
  (∀ s : State, s.status = .running →
    (tick s).dt.toNat = s.dt.toNat - 1 ∧ (tick s).st.toNat = s.st.toNat - 1 ∧
    ChangesOnly noReg { dt := true, st := true } s (tick s)) ∧
  (∀ s : State, s.status ≠ .running → tick s = s)

/-- In status AWAIT_KEY(x), KeyPress(k) leaves V[x] = k zero-extended and STATUS RUNNING and changes nothing else;
in any other status it changes nothing. (The spec's decisions D17, D25, log 16.) Derived from 60_exceptions.md
section 5, R185. -/
def Obligations.KeyPressEndsTheWait : Prop :=
  (∀ (s : State) (x k : Nibble), s.status = .awaitKey x →
    ((keyPress k s).getV x).toNat = k.toNat ∧ (keyPress k s).status = .running ∧
    ChangesOnly (regIs x) { status := true } s (keyPress k s)) ∧
  (∀ (s : State) (k : Nibble), (∀ x, s.status ≠ .awaitKey x) → keyPress k s = s)

/-- A listed Reset with any FONT table and any image of at most 3584 bytes answers, from any state: PC 0x200, every
register, I, DT, ST, SP, stack slot and pixel zero, STATUS RUNNING; memory reads FONT[j] at j, image[j] at 0x200
+ j, and 0 at 0x050 to 0x1FF and past the image. The zeros are the spec's decisions D7, D8 (log 4, log 5); FONT
as an argument of the event is the model's (log 6). Derived from 70_reset_and_hazards.md section 1, R200, R201;
10_state.md section 9, R37. -/
def Obligations.ResetLoadsFontAndImage : Prop :=
  ∀ (s : State) (font : Vector Byte 80) (image : List Byte) (rest : List Event),
    s.env.schedule = .reset font image :: rest → image.length ≤ 3584 →
    ∃ t, step s = .next t ∧ t.pc = 0x200#16 ∧ t.status = .running ∧
      (∀ r : Nibble, t.getV r = 0#8) ∧ t.i = 0#16 ∧ t.dt = 0#8 ∧ t.st = 0#8 ∧ t.sp.val = 0 ∧
      (∀ j : Nat, j < 16 → t.stack[j]? = some 0#16) ∧
      (∀ r c : Nat, r < 32 → c < 64 → Screen.pixel t.fb r c = false) ∧
      (∀ j : Nat, j < 80 → font[j]? = some (t.mem.read j)) ∧
      (∀ j : Nat, j < image.length → image[j]? = some (t.mem.read (0x200 + j))) ∧
      (∀ a : Nat, (0x50 ≤ a ∧ a < 0x200) ∨ 0x200 + image.length ≤ a → t.mem.read a = 0#8) ∧
      t.env = { s.env with schedule := rest }

/-- A listed Reset whose image is longer than 3584 bytes is refused by name (the spec's decision D20, log 19).
Derived from 70_reset_and_hazards.md section 1, R202. -/
def Obligations.OversizedImageIsRefused : Prop :=
  ∀ (s : State) (font : Vector Byte 80) (image : List Byte) (rest : List Event),
    s.env.schedule = .reset font image :: rest → 3584 < image.length →
    step s = .refused (.illegalReset image.length)

/-- The model's reset state is what construct gives for the empty image, any FONT table whose bytes are the default
ones, and the silent environment (log 28). Derived from 10_state.md section 9, R37; 70_reset_and_hazards.md
section 1, R200. -/
def Obligations.ResetStateIsTheEmptyImageReset : Prop :=
  ∀ font : Vector Byte 80, (∀ j : Nat, j < 80 → font[j]? = some (fontByte j)) →
    construct font [] Env.silent = some State.reset

/-- fbTouched of a state holds exactly when the state is RUNNING, the fetch succeeds, the word decodes to CLS or
DRW, and the Step answers a state that is not FAULTED. (A rendering of the spec's decision D1, log 24.) Derived
from 60_exceptions.md section 6, R187, R191. -/
def Obligations.FramebufferNotificationMarksClsAndDrw : Prop :=
  ∀ s : State, fbTouched s = true ↔
    s.status = .running ∧ s.pc.toNat ≤ 0xFFE ∧
    ∃ i t, decodeWord (wordAtPc s) = .ok i ∧ (i = .cls ∨ ∃ x y n, i = .drw x y n) ∧
      stepEvent s = .next t ∧ NotFaulted t

/-- MemRead of n = 1 or 2 bytes at addr fails with OutOfRange(max(addr, 0x1000)) when addr + n - 1 is above 0xFFF;
otherwise for n = 1 it gives the byte at addr and for n = 2 the byte at addr in bits 15 to 8 and the byte at
addr + 1 in bits 7 to 0. A read answers a value only and changes no state; the two-byte read is the fetch.
Formalises R54. -/
def Obligations.MemReadChecksItsRange : Prop :=
  ∀ (m : Memory) (addr : Nat),
    (0xFFF < addr + 1 - 1 → readChecked m addr 1 = .error (.outOfRange (max addr 0x1000))) ∧
    (0xFFF < addr + 2 - 1 → memRead2 m addr = .error (.outOfRange (max addr 0x1000))) ∧
    (addr + 1 - 1 ≤ 0xFFF → readChecked m addr 1 = .ok [m.read addr]) ∧
    (addr + 2 - 1 ≤ 0xFFF → ∃ w, memRead2 m addr = .ok w ∧
      w.toNat = 256 * (m.read addr).toNat + (m.read (addr + 1)).toNat) ∧
    (∀ s : State, fetch s = memRead2 s.mem s.pc.toNat)

/-- For a canonical memory and an address of the 4096-byte space: the memory after a write is canonical, the address
reads the value written, and every other address reads as before. (The canonical form, as premise and as clause,
is the model's own representation of memory, log 25; R55 and R60 give the reads.) Derived from 20_memory.md
section 4, R60; 20_memory.md section 2, R55. -/
def Obligations.MemoryReadsBackWhatWasWritten : Prop :=
  ∀ (m : Memory) (a : Nat) (b : Byte), m.wf = true → a ≤ 0xFFF →
    (m.write a b).wf = true ∧ (m.write a b).read a = b ∧ ∀ x : Nat, x ≠ a → (m.write a b).read x = m.read x

/-- The canonical form is a normal form of the memory contents (the model's representation, log 25). Derived from
20_memory.md section 1, R50, R60. -/
def Obligations.EqualMemoriesAreEqualData : Prop :=
  ∀ m m' : Memory, m.wf = true → m'.wf = true → (∀ a : Nat, m.read a = m'.read a) → m = m'

/-- With room, Push writes the slot numbered SP and adds one to SP; with an entry, Pop gives the word in the last
slot in use and subtracts one; neither changes anything else. With 16 entries Push fails and CALL faults
StackOverflow with only STATUS changed; with none Pop fails and RET faults StackUnderflow likewise. From any
state with room, pushing a list of words and popping as many gives them in exact reverse order and the count
before. Only CALL raises SP and only RET lowers it. Formalises R109, R110. -/
def Obligations.StackIsLastInFirstOut : Prop :=
  (∀ (s : State) (w : Word), s.sp.val < 16 → ∃ t, s.push w = some t ∧
    t.stack[s.sp.val]? = some w ∧ (∀ j : Nat, j ≠ s.sp.val → t.stack[j]? = s.stack[j]?) ∧
    t.sp.val = s.sp.val + 1 ∧ ChangesOnly noReg { stack := true } s t) ∧
  (∀ s : State, 0 < s.sp.val → ∃ w t, s.pop = some (w, t) ∧ s.stack[s.sp.val - 1]? = some w ∧
    t.sp.val = s.sp.val - 1 ∧ t.stack = s.stack ∧ ChangesOnly noReg { stack := true } s t) ∧
  (∀ (s : State) (w : Word), s.sp.val = 16 → s.push w = none ∧
    ∀ nnn, exec (.call nnn) s = .next { s with status := .faulted .stackOverflow }) ∧
  (∀ s : State, s.sp.val = 0 → s.pop = none ∧
    exec .ret s = .next { s with status := .faulted .stackUnderflow }) ∧
  (∀ (s : State) (ws : List Word), s.sp.val + ws.length ≤ 16 →
    ∃ t u, pushAll ws s = some t ∧ t.sp.val = s.sp.val + ws.length ∧
      popMany ws.length t = some (ws.reverse, u) ∧ u.sp = s.sp) ∧
  (∀ (i : Instr) (s t : State), exec i s = .next t →
    (s.sp.val < t.sp.val → ∃ nnn, i = .call nnn) ∧ (t.sp.val < s.sp.val → i = .ret))

/-- Memory is canonical, PC is at most 0x10FE and so is every return address in use, in State.reset. (That memory is
canonical is a clause of the model's own, its representation of memory, log 25; that State.reset is the reset of
the empty image is the model's too, log 28; that no return address is in use is the spec's decision D7, log 4.)
Derived from 10_state.md section 9, R37. -/
def Obligations.InvariantHoldsAtReset : Prop :=
  Inv State.reset

/-- From every state that meets the invariant, whatever event comes next, if the step answers a next state then that
state meets the invariant: memory stays in canonical form, PC never exceeds 0x10FE (so its 16 bits never wrap),
and no return address in use does. (The clause on memory is the model's own, its representation of memory, log
25; the bounds are those of R26.) Derived from 10_state.md section 3, R26; 10_state.md section 5, R29, R30. -/
def Obligations.EveryStepKeepsTheInvariant : Prop :=
  ∀ s t : State, Inv s → step s = .next t → Inv t

/-- The word 0x00E0 decodes to CLS; in every state CLS completes, every pixel is 0 after it, nothing else is
changed, and CLS counts as touching the framebuffer. Formalises R151. -/
def Obligations.ClearScreenZeroesTheFramebuffer : Prop :=
  EncodedBy 0xFFFF#16 0x00E0#16 (fun _ => .cls) ∧ touchesFb .cls = true ∧
  ∀ s : State, ∃ t, exec .cls s = .next t ∧
    (∀ r c : Nat, r < 32 → c < 64 → Screen.pixel t.fb r c = false) ∧
    ChangesOnly noReg { fb := true } s t

/-- Dxyn decodes to DRW. When the n bytes at I are in range DRW completes: each pixel is flipped exactly where the
sprite has a 1 (bit 7 leftmost, columns modulo 64, rows y0 + k not beyond 31), VF is 1 if some flipped pixel was
set before and 0 otherwise, and nothing else is changed (only VF among the registers, no byte of memory). When
they are not in range it faults OutOfRange(max(I, 0x1000)) with no other effect. Rests on the spec's decisions
D6, D11, D14, D15 (log 10, 12, 14, 15). (The opcode numerals are the spec's decision D2, log 7.) Derived from
43_display.md section 2, R152; 43_display.md section 1, R153 to R155. -/
def Obligations.DrawXorsTheSpriteAndReportsCollision : Prop :=
  EncodedBy 0xF000#16 0xD000#16 (fun w => .drw (fieldX w) (fieldY w) (fieldN w)) ∧
  ∀ (x y n : Nibble) (s : State),
    (InRange s.i.toNat n.toNat → ∃ t, exec (.drw x y n) s = .next t ∧
      (∀ r c : Nat, r < 32 → c < 64 →
        (Screen.pixel t.fb r c = true ↔
          (Screen.pixel s.fb r c = true ∧ ¬ spritePixel s (s.getV x).toNat (s.getV y).toNat n.toNat r c) ∨
          (Screen.pixel s.fb r c = false ∧ spritePixel s (s.getV x).toNat (s.getV y).toNat n.toNat r c))) ∧
      (t.getV 0xF#4 = 0x00#8 ∨ t.getV 0xF#4 = 0x01#8) ∧
      (t.getV 0xF#4 = 0x01#8 ↔ ∃ r c : Nat, r < 32 ∧ c < 64 ∧ Screen.pixel s.fb r c = true ∧
        spritePixel s (s.getV x).toNat (s.getV y).toNat n.toNat r c) ∧
      ChangesOnly (regIs 0xF#4) { fb := true } s t) ∧
    (¬ InRange s.i.toNat n.toNat →
      exec (.drw x y n) s = .next { s with status := .faulted (.outOfRange (max s.i.toNat 0x1000)) })

/-- For coordinates not held in VF and n bytes in range, two executions of the same DRW leave the framebuffer as it
was, and the second leaves VF = 1 exactly when the sprite has a 1, in a drawn row, on a pixel that was clear
before the first. (The remark (f) of R152 that the second always collides holds only then; log 29.) Derived from
43_display.md section 2, R152 corner case (f). -/
def Obligations.DrawingTwiceRestoresTheFramebuffer : Prop :=
  ∀ (x y n : Nibble) (s : State), x ≠ 0xF#4 → y ≠ 0xF#4 → InRange s.i.toNat n.toNat →
    ∃ t u, exec (.drw x y n) s = .next t ∧ exec (.drw x y n) t = .next u ∧ u.fb = s.fb ∧
      (u.getV 0xF#4 = 0x01#8 ↔ ∃ r c : Nat, r < 32 ∧ c < 64 ∧ Screen.pixel s.fb r c = false ∧
        spritePixel s (s.getV x).toNat (s.getV y).toNat n.toNat r c)

/-- 0x00EE decodes to RET. With SP above 0 RET completes: PC is the word in the last slot in use, unmodified, SP is
one less, the slots and everything else are unchanged. With SP = 0 it answers the state with only STATUS
changed, to FAULTED(StackUnderflow). (The opcode numerals are the spec's decision D2, log 7.) Derived from
40_control_flow.md section 3, R101. -/
def Obligations.ReturnPopsIntoPC : Prop :=
  EncodedBy 0xFFFF#16 0x00EE#16 (fun _ => .ret) ∧
  ∀ s : State,
    (0 < s.sp.val → ∃ t, exec .ret s = .next t ∧
      s.stack[s.sp.val - 1]? = some t.pc ∧ t.sp.val = s.sp.val - 1 ∧ t.stack = s.stack ∧
      ChangesOnly noReg { pc := true, stack := true } s t) ∧
    (s.sp.val = 0 → exec .ret s = .next { s with status := .faulted .stackUnderflow })

/-- 1nnn decodes to JP nnn; in every state it completes with PC = nnn zero-extended, nothing else changed. (The
opcode numerals are the spec's decision D2, log 7.) Derived from 40_control_flow.md section 3, R102. -/
def Obligations.JumpSetsPC : Prop :=
  EncodedBy 0xF000#16 0x1000#16 (fun w => .jp (fieldNNN w)) ∧
  ∀ (nnn : Addr) (s : State), ∃ t, exec (.jp nnn) s = .next t ∧ t.pc.toNat = nnn.toNat ∧
    ChangesOnly noReg { pc := true } s t

/-- 2nnn decodes to CALL nnn. With SP below 16 CALL completes: the slot at the old SP holds the PC (already
advanced), SP is one more, the other slots are as before, PC = nnn zero-extended, nothing else changed. With SP
= 16 it answers the state with only STATUS changed, to FAULTED(StackOverflow). (The opcode numerals are the
spec's decision D2, log 7.) Derived from 40_control_flow.md section 3, R103. -/
def Obligations.CallPushesAndJumps : Prop :=
  EncodedBy 0xF000#16 0x2000#16 (fun w => .call (fieldNNN w)) ∧
  ∀ (nnn : Addr) (s : State),
    (s.sp.val < 16 → ∃ t, exec (.call nnn) s = .next t ∧ t.pc.toNat = nnn.toNat ∧
      t.sp.val = s.sp.val + 1 ∧ t.stack[s.sp.val]? = some s.pc ∧
      (∀ j : Nat, j ≠ s.sp.val → t.stack[j]? = s.stack[j]?) ∧
      ChangesOnly noReg { pc := true, stack := true } s t) ∧
    (s.sp.val = 16 → exec (.call nnn) s = .next { s with status := .faulted .stackOverflow })

/-- 3xkk and 4xkk decode to SE_IMM and SNE_IMM; in every state each completes with PC 2 more when its condition on
V[X] and kk holds, the same PC otherwise, and nothing else changed. (The opcode numerals are the spec's decision
D2, log 7.) Derived from 40_control_flow.md section 3, R104, R105. -/
def Obligations.ImmediateSkipsCompareARegister : Prop :=
  EncodedBy 0xF000#16 0x3000#16 (fun w => .seImm (fieldX w) (fieldKK w)) ∧
  EncodedBy 0xF000#16 0x4000#16 (fun w => .sneImm (fieldX w) (fieldKK w)) ∧
  ∀ (x : Nibble) (kk : Byte) (s : State),
    (∃ t, exec (.seImm x kk) s = .next t ∧ t.pc = (if s.getV x = kk then s.pc + 2#16 else s.pc) ∧
      ChangesOnly noReg { pc := true } s t) ∧
    (∃ t, exec (.sneImm x kk) s = .next t ∧ t.pc = (if s.getV x = kk then s.pc else s.pc + 2#16) ∧
      ChangesOnly noReg { pc := true } s t)

/-- Every word of family 5 and of family 9, whatever its low nibble, decodes to SE_REG and SNE_REG; in every state
each completes with PC 2 more when its condition on V[X] and V[Y] holds, the same PC otherwise, and nothing else
changed. That the low nibble is ignored is the spec's decision D3 (log 8). (The opcode numerals are the spec's
decision D2, log 7.) Derived from 40_control_flow.md section 3, R106, R107; 30_encoding.md section 2, R75, R80. -/
def Obligations.RegisterSkipsCompareTwoRegisters : Prop :=
  EncodedBy 0xF000#16 0x5000#16 (fun w => .seReg (fieldX w) (fieldY w)) ∧
  EncodedBy 0xF000#16 0x9000#16 (fun w => .sneReg (fieldX w) (fieldY w)) ∧
  ∀ (x y : Nibble) (s : State),
    (∃ t, exec (.seReg x y) s = .next t ∧ t.pc = (if s.getV x = s.getV y then s.pc + 2#16 else s.pc) ∧
      ChangesOnly noReg { pc := true } s t) ∧
    (∃ t, exec (.sneReg x y) s = .next t ∧ t.pc = (if s.getV x = s.getV y then s.pc else s.pc + 2#16) ∧
      ChangesOnly noReg { pc := true } s t)

/-- Bnnn decodes to JP_V0 nnn; in every state it completes with PC the mathematical sum of nnn and V0 (at most
0x10FE, not reduced modulo 4096), nothing else changed, VF included. (The opcode numerals are the spec's
decision D2, log 7.) Derived from 40_control_flow.md section 3, R108. -/
def Obligations.JumpWithOffsetAddsV0 : Prop :=
  EncodedBy 0xF000#16 0xB000#16 (fun w => .jpV0 (fieldNNN w)) ∧
  ∀ (nnn : Addr) (s : State), ∃ t, exec (.jpV0 nnn) s = .next t ∧
    t.pc.toNat = nnn.toNat + (s.getV 0x0#4).toNat ∧ t.pc.toNat ≤ 0x10FE ∧ ChangesOnly noReg { pc := true } s t

/-- 6xkk decodes to LD_IMM; in every state it completes with V[X] = kk, nothing else changed. (The opcode numerals
are the spec's decision D2, log 7.) Derived from 41_alu.md section 2, R121. -/
def Obligations.LoadImmediateWritesTheRegister : Prop :=
  EncodedBy 0xF000#16 0x6000#16 (fun w => .ldImm (fieldX w) (fieldKK w)) ∧
  ∀ (x : Nibble) (kk : Byte) (s : State), ∃ t, exec (.ldImm x kk) s = .next t ∧ t.getV x = kk ∧
    ChangesOnly (regIs x) {} s t

/-- 7xkk decodes to ADD_IMM; in every state it completes with V[X] = (V[X] + kk) mod 256, nothing else changed (VF
only when X = 15, as the destination). (The opcode numerals are the spec's decision D2, log 7.) Derived from
41_alu.md section 2, R122. -/
def Obligations.AddImmediateWrapsWithoutFlag : Prop :=
  EncodedBy 0xF000#16 0x7000#16 (fun w => .addImm (fieldX w) (fieldKK w)) ∧
  ∀ (x : Nibble) (kk : Byte) (s : State), ∃ t, exec (.addImm x kk) s = .next t ∧
    (t.getV x).toNat = ((s.getV x).toNat + kk.toNat) % 256 ∧ ChangesOnly (regIs x) {} s t

/-- 8xy0 to 8xy3 decode to MOV, OR, AND, XOR; in every state each completes with every bit of V[X] the bit of V[Y],
or the or, and, exclusive or of the bits of V[X] and V[Y], nothing else changed: VF is not cleared. (The opcode
numerals are the spec's decision D2, log 7.) Derived from 41_alu.md section 2, R123, R124, R125, R126. -/
def Obligations.MoveAndLogicWriteOneRegister : Prop :=
  EncodedBy 0xF00F#16 0x8000#16 (fun w => .mov (fieldX w) (fieldY w)) ∧
  EncodedBy 0xF00F#16 0x8001#16 (fun w => .or (fieldX w) (fieldY w)) ∧
  EncodedBy 0xF00F#16 0x8002#16 (fun w => .and (fieldX w) (fieldY w)) ∧
  EncodedBy 0xF00F#16 0x8003#16 (fun w => .xor (fieldX w) (fieldY w)) ∧
  ∀ (x y : Nibble) (s : State),
    (∃ t, exec (.mov x y) s = .next t ∧ t.getV x = s.getV y ∧ ChangesOnly (regIs x) {} s t) ∧
    (∃ t, exec (.or x y) s = .next t ∧
      (∀ j : Nat, (t.getV x).getLsbD j = ((s.getV x).getLsbD j || (s.getV y).getLsbD j)) ∧
      ChangesOnly (regIs x) {} s t) ∧
    (∃ t, exec (.and x y) s = .next t ∧
      (∀ j : Nat, (t.getV x).getLsbD j = ((s.getV x).getLsbD j && (s.getV y).getLsbD j)) ∧
      ChangesOnly (regIs x) {} s t) ∧
    (∃ t, exec (.xor x y) s = .next t ∧
      (∀ j : Nat, (t.getV x).getLsbD j = ((s.getV x).getLsbD j ^^ (s.getV y).getLsbD j)) ∧
      ChangesOnly (regIs x) {} s t)

/-- 8xy4 decodes to ADD_REG; in every state it completes with VF = 1 if V[X] + V[Y] was at least 256 and 0
otherwise, V[X] = the sum mod 256 unless X = 15, both from the old values, and nothing else changed. (The opcode
numerals are the spec's decision D2, log 7.) Derived from 41_alu.md section 2, R127. -/
def Obligations.AddRegistersSetsCarry : Prop :=
  EncodedBy 0xF00F#16 0x8004#16 (fun w => .addReg (fieldX w) (fieldY w)) ∧
  ∀ (x y : Nibble) (s : State), ∃ t, exec (.addReg x y) s = .next t ∧
    (x ≠ 0xF#4 → (t.getV x).toNat = ((s.getV x).toNat + (s.getV y).toNat) % 256) ∧
    (t.getV 0xF#4).toNat = (if 256 ≤ (s.getV x).toNat + (s.getV y).toNat then 1 else 0) ∧
    ChangesOnly (regOrVF x) {} s t

/-- 8xy5 and 8xy7 decode to SUB and SUBN; in every state each completes with V[X] = (V[X] - V[Y]) mod 256, for SUBN
(V[Y] - V[X]) mod 256, unless X = 15, VF = 1 if the minuend was at least the subtrahend and 0 otherwise, both
from the old values, and nothing else changed. (The opcode numerals are the spec's decision D2, log 7.) Derived
from 41_alu.md section 2, R128, R129. -/
def Obligations.SubtractionsSetNotBorrow : Prop :=
  EncodedBy 0xF00F#16 0x8005#16 (fun w => .sub (fieldX w) (fieldY w)) ∧
  EncodedBy 0xF00F#16 0x8007#16 (fun w => .subn (fieldX w) (fieldY w)) ∧
  ∀ (x y : Nibble) (s : State),
    (∃ t, exec (.sub x y) s = .next t ∧
      (x ≠ 0xF#4 → ((t.getV x).toNat : Int) = (((s.getV x).toNat : Int) - ((s.getV y).toNat : Int)) % 256) ∧
      (t.getV 0xF#4).toNat = (if (s.getV y).toNat ≤ (s.getV x).toNat then 1 else 0) ∧
      ChangesOnly (regOrVF x) {} s t) ∧
    (∃ t, exec (.subn x y) s = .next t ∧
      (x ≠ 0xF#4 → ((t.getV x).toNat : Int) = (((s.getV y).toNat : Int) - ((s.getV x).toNat : Int)) % 256) ∧
      (t.getV 0xF#4).toNat = (if (s.getV x).toNat ≤ (s.getV y).toNat then 1 else 0) ∧
      ChangesOnly (regOrVF x) {} s t)

/-- 8xy6 and 8xyE decode to SHR and SHL; in every state each completes with V[X] = V[Y] / 2, for SHL 2 V[Y] mod 256,
unless X = 15, VF = bit 0, for SHL bit 7, of V[Y] before, and nothing else changed. (The opcode numerals are the
spec's decision D2, log 7.) Derived from 41_alu.md section 2, R130, R131. -/
def Obligations.ShiftsTakeTheirSourceFromY : Prop :=
  EncodedBy 0xF00F#16 0x8006#16 (fun w => .shr (fieldX w) (fieldY w)) ∧
  EncodedBy 0xF00F#16 0x800E#16 (fun w => .shl (fieldX w) (fieldY w)) ∧
  ∀ (x y : Nibble) (s : State),
    (∃ t, exec (.shr x y) s = .next t ∧
      (x ≠ 0xF#4 → (t.getV x).toNat = (s.getV y).toNat / 2) ∧
      (t.getV 0xF#4).toNat = (s.getV y).toNat % 2 ∧ ChangesOnly (regOrVF x) {} s t) ∧
    (∃ t, exec (.shl x y) s = .next t ∧
      (x ≠ 0xF#4 → (t.getV x).toNat = (s.getV y).toNat * 2 % 256) ∧
      (t.getV 0xF#4).toNat = (s.getV y).toNat / 128 ∧ ChangesOnly (regOrVF x) {} s t)

/-- Cxkk decodes to RND. In every state it completes with V[X] the byte the input shows, ANDed with kk, one draw
taken and nothing else changed; whatever byte d the environment lists next, V[X] = d AND kk and d is taken off
the list. The draw is under no law (D18); how the environment's side is held is the model's (log 2). (The opcode
numerals are the spec's decision D2, log 7.) Derived from 41_alu.md section 2, R132; 60_exceptions.md section 6,
R190. -/
def Obligations.RandomMasksOneDraw : Prop :=
  EncodedBy 0xF000#16 0xC000#16 (fun w => .rnd (fieldX w) (fieldKK w)) ∧
  ∀ (x : Nibble) (kk : Byte) (s : State), ∃ t, exec (.rnd x kk) s = .next t ∧
    t.getV x = s.rndByte &&& kk ∧
    (∀ (d : Byte) (ds : List Byte), s.env.rndDraws = d :: ds → t.getV x = d &&& kk) ∧
    t.env = { s.env with rndDraws := s.env.rndDraws.tail, rndCount := s.env.rndCount + 1 } ∧
    ChangesOnly (regIs x) { env := true } s t

/-- Annn decodes to LD_I nnn; in every state it completes with I = nnn zero-extended, nothing else changed. (The
opcode numerals are the spec's decision D2, log 7.) Derived from 42_index_memory.md section 1, R140. -/
def Obligations.LoadIndexWritesI : Prop :=
  EncodedBy 0xF000#16 0xA000#16 (fun w => .ldI (fieldNNN w)) ∧
  ∀ (nnn : Addr) (s : State), ∃ t, exec (.ldI nnn) s = .next t ∧ t.i.toNat = nnn.toNat ∧
    ChangesOnly noReg { i := true } s t

/-- Fx29 decodes to LD_F; in every state it completes with I = 5 times the whole byte V[X], nothing else changed.
That the byte is not masked to a nibble is the spec's decision D22 (log 27). (The opcode numerals are the spec's
decision D2, log 7.) Derived from 42_index_memory.md section 1, R142. -/
def Obligations.GlyphAddressIsFiveTimesTheRegister : Prop :=
  EncodedBy 0xF0FF#16 0xF029#16 (fun w => .ldF (fieldX w)) ∧
  ∀ (x : Nibble) (s : State), ∃ t, exec (.ldF x) s = .next t ∧ t.i.toNat = 5 * (s.getV x).toNat ∧
    ChangesOnly noReg { i := true } s t

/-- Fx1E decodes to ADD_I. When I + V[X] is at most 0xFFFF it completes with I the sum, even above 0xFFF, nothing
else changed, VF included. A greater sum answers the state with only STATUS changed, to
FAULTED(OutOfRange(sum)). Both halves are the spec's decision D12 (log 13). (The opcode numerals are the spec's
decision D2, log 7.) Derived from 42_index_memory.md section 1, R141. -/
def Obligations.AddIndexStoresSixteenBitSums : Prop :=
  EncodedBy 0xF0FF#16 0xF01E#16 (fun w => .addI (fieldX w)) ∧
  ∀ (x : Nibble) (s : State),
    (s.i.toNat + (s.getV x).toNat ≤ 0xFFFF → ∃ t, exec (.addI x) s = .next t ∧
      t.i.toNat = s.i.toNat + (s.getV x).toNat ∧ ChangesOnly noReg { i := true } s t) ∧
    (0xFFFF < s.i.toNat + (s.getV x).toNat → exec (.addI x) s =
      .next { s with status := .faulted (.outOfRange (s.i.toNat + (s.getV x).toNat)) })

/-- Fx33 decodes to LD_B. With memory canonical (an invariant of the model) and the three addresses in range it
completes: the bytes at I, I + 1, I + 2 are V[X] / 100, (V[X] / 10) mod 10 and V[X] mod 10, every other byte and
everything else is unchanged, I included. Out of range it answers the state with only STATUS changed, to
FAULTED(OutOfRange(max(I, 0x1000))). That nothing is written then is the spec's decision D11 (log 12). (The
opcode numerals are the spec's decision D2, log 7.) Derived from 42_index_memory.md section 2, R143. -/
def Obligations.StoreBcdWritesThreeDigits : Prop :=
  EncodedBy 0xF0FF#16 0xF033#16 (fun w => .ldB (fieldX w)) ∧
  ∀ (x : Nibble) (s : State),
    (s.mem.wf = true → InRange s.i.toNat 3 → ∃ t, exec (.ldB x) s = .next t ∧
      (t.mem.read s.i.toNat).toNat = (s.getV x).toNat / 100 ∧
      (t.mem.read (s.i.toNat + 1)).toNat = (s.getV x).toNat / 10 % 10 ∧
      (t.mem.read (s.i.toNat + 2)).toNat = (s.getV x).toNat % 10 ∧
      (∀ a : Nat, a < s.i.toNat ∨ s.i.toNat + 3 ≤ a → t.mem.read a = s.mem.read a) ∧
      ChangesOnly noReg { mem := true } s t) ∧
    (¬ InRange s.i.toNat 3 →
      exec (.ldB x) s = .next { s with status := .faulted (.outOfRange (max s.i.toNat 0x1000)) })

/-- Fx55 decodes to ST_REGS. With memory canonical (an invariant of the model) and the X + 1 addresses in range it
completes: the byte at I + k is V[k] for every k up to X, every other byte and everything else is unchanged, I
included. Out of range it answers the state with only STATUS changed, to FAULTED(OutOfRange(max(I, 0x1000))).
That nothing is written then is the spec's decision D11 (log 12). (The opcode numerals are the spec's decision
D2, log 7.) Derived from 42_index_memory.md section 2, R144, R146. -/
def Obligations.StoreRegistersWritesTheBlock : Prop :=
  EncodedBy 0xF0FF#16 0xF055#16 (fun w => .stRegs (fieldX w)) ∧
  ∀ (x : Nibble) (s : State),
    (s.mem.wf = true → InRange s.i.toNat (x.toNat + 1) → ∃ t, exec (.stRegs x) s = .next t ∧
      (∀ k : Nibble, k.toNat ≤ x.toNat → t.mem.read (s.i.toNat + k.toNat) = s.getV k) ∧
      (∀ a : Nat, a < s.i.toNat ∨ s.i.toNat + (x.toNat + 1) ≤ a → t.mem.read a = s.mem.read a) ∧
      ChangesOnly noReg { mem := true } s t) ∧
    (¬ InRange s.i.toNat (x.toNat + 1) →
      exec (.stRegs x) s = .next { s with status := .faulted (.outOfRange (max s.i.toNat 0x1000)) })

/-- Fx65 decodes to LD_REGS. With the X + 1 addresses in range it completes: V[k] is the byte at I + k for every k
up to X, the registers above X, I, every byte of memory and everything else are unchanged. Out of range it
answers the state with only STATUS changed, to FAULTED(OutOfRange(max(I, 0x1000))). That no register is written
then is the spec's decision D11 (log 12). (The opcode numerals are the spec's decision D2, log 7.) Derived from
42_index_memory.md section 2, R145, R146. -/
def Obligations.LoadRegistersReadsTheBlock : Prop :=
  EncodedBy 0xF0FF#16 0xF065#16 (fun w => .ldRegs (fieldX w)) ∧
  ∀ (x : Nibble) (s : State),
    (InRange s.i.toNat (x.toNat + 1) → ∃ t, exec (.ldRegs x) s = .next t ∧
      (∀ k : Nibble, k.toNat ≤ x.toNat → t.getV k = s.mem.read (s.i.toNat + k.toNat)) ∧
      ChangesOnly (fun r => r.toNat ≤ x.toNat) {} s t) ∧
    (¬ InRange s.i.toNat (x.toNat + 1) →
      exec (.ldRegs x) s = .next { s with status := .faulted (.outOfRange (max s.i.toNat 0x1000)) })

/-- From a state with canonical memory and the range in bounds: after ST_REGS X, any change of the registers alone
and LD_REGS X, every V[k] with k up to X is what it was before ST_REGS. Derived from 42_index_memory.md section
2, R145, R146. -/
def Obligations.RegisterBlockRoundTrip : Prop :=
  ∀ (x : Nibble) (s : State), s.mem.wf = true → InRange s.i.toNat (x.toNat + 1) →
    ∃ t, exec (.stRegs x) s = .next t ∧
      ∀ v : Vector Byte 16, ∃ u, exec (.ldRegs x) { t with v := v } = .next u ∧
        ∀ k : Nibble, k.toNat ≤ x.toNat → u.getV k = s.getV k

/-- Fx07, Fx15 and Fx18 decode to LD_VX_DT, LD_DT_VX and LD_ST_VX; in every state they complete with V[X] = DT, DT =
V[X] and ST = V[X], nothing else changed. (The opcode numerals are the spec's decision D2, log 7.) Derived from
44_timers_input.md section 1, R160, R161, R162. -/
def Obligations.TimerInstructionsMoveOneByte : Prop :=
  EncodedBy 0xF0FF#16 0xF007#16 (fun w => .ldVxDt (fieldX w)) ∧
  EncodedBy 0xF0FF#16 0xF015#16 (fun w => .ldDtVx (fieldX w)) ∧
  EncodedBy 0xF0FF#16 0xF018#16 (fun w => .ldStVx (fieldX w)) ∧
  ∀ (x : Nibble) (s : State),
    (∃ t, exec (.ldVxDt x) s = .next t ∧ t.getV x = s.dt ∧ ChangesOnly (regIs x) {} s t) ∧
    (∃ t, exec (.ldDtVx x) s = .next t ∧ t.dt = s.getV x ∧ ChangesOnly noReg { dt := true } s t) ∧
    (∃ t, exec (.ldStVx x) s = .next t ∧ t.st = s.getV x ∧ ChangesOnly noReg { st := true } s t)

/-- Ex9E and ExA1 decode to SKP and SKNP; in every state each completes, one sample of KEYS taken, PC 2 more when
the key V[X] mod 16 is held, for SKNP not held, the same PC otherwise, nothing else changed; whatever sixteen
levels ks the environment lists next, they decide. How the samples are held is the model's (log 3). (The opcode
numerals are the spec's decision D2, log 7.) Derived from 44_timers_input.md section 2, R163, R164, R166;
60_exceptions.md section 6, R188. -/
def Obligations.KeySkipsSampleOneKey : Prop :=
  EncodedBy 0xF0FF#16 0xE09E#16 (fun w => .skp (fieldX w)) ∧
  EncodedBy 0xF0FF#16 0xE0A1#16 (fun w => .sknp (fieldX w)) ∧
  ∀ (x : Nibble) (s : State),
    (∃ t, exec (.skp x) s = .next t ∧
      t.pc = (if s.keyLevels.getLsbD ((s.getV x).toNat % 16) = true then s.pc + 2#16 else s.pc) ∧
      t.env = { s.env with keySamples := s.env.keySamples.tail, keyCount := s.env.keyCount + 1 } ∧
      ChangesOnly noReg { pc := true, env := true } s t) ∧
    (∃ t, exec (.sknp x) s = .next t ∧
      t.pc = (if s.keyLevels.getLsbD ((s.getV x).toNat % 16) = true then s.pc else s.pc + 2#16) ∧
      t.env = { s.env with keySamples := s.env.keySamples.tail, keyCount := s.env.keyCount + 1 } ∧
      ChangesOnly noReg { pc := true, env := true } s t) ∧
    (∀ (ks : BitVec 16) (rest : List (BitVec 16)), s.env.keySamples = ks :: rest → s.keyLevels = ks)

/-- Fx0A decodes to LD_VX_K; in every state it completes with STATUS = AWAIT_KEY(X), nothing else changed; the
register is written by the KeyPress that ends the wait. (The latch is the spec's decision D17, log 16.) (The
opcode numerals are the spec's decision D2, log 7.) Derived from 44_timers_input.md section 2, R165. -/
def Obligations.AwaitKeyOnlySetsTheStatus : Prop :=
  EncodedBy 0xF0FF#16 0xF00A#16 (fun w => .ldVxK (fieldX w)) ∧
  ∀ (x : Nibble) (s : State), ∃ t, exec (.ldVxK x) s = .next t ∧ t.status = .awaitKey x ∧
    ChangesOnly noReg { status := true } s t
end

