-- ==== Sys2Proof/Laws/State.lean ====
section
/-! SUPPORT. One lemma per field per update of the state, and the register reads after each update. -/

namespace Sys2Proof.Machine

/-! ### `setV` -/

@[simp] theorem State.setV_v (s : State) (x : Nibble) (b : Byte) : (s.setV x b).v = s.v.set x.toNat b x.isLt := rfl
@[simp] theorem State.setV_i (s : State) (x : Nibble) (b : Byte) : (s.setV x b).i = s.i := rfl
@[simp] theorem State.setV_pc (s : State) (x : Nibble) (b : Byte) : (s.setV x b).pc = s.pc := rfl
@[simp] theorem State.setV_dt (s : State) (x : Nibble) (b : Byte) : (s.setV x b).dt = s.dt := rfl
@[simp] theorem State.setV_st (s : State) (x : Nibble) (b : Byte) : (s.setV x b).st = s.st := rfl
@[simp] theorem State.setV_stack (s : State) (x : Nibble) (b : Byte) : (s.setV x b).stack = s.stack := rfl
@[simp] theorem State.setV_sp (s : State) (x : Nibble) (b : Byte) : (s.setV x b).sp = s.sp := rfl
@[simp] theorem State.setV_mem (s : State) (x : Nibble) (b : Byte) : (s.setV x b).mem = s.mem := rfl
@[simp] theorem State.setV_fb (s : State) (x : Nibble) (b : Byte) : (s.setV x b).fb = s.fb := rfl
@[simp] theorem State.setV_status (s : State) (x : Nibble) (b : Byte) : (s.setV x b).status = s.status := rfl
@[simp] theorem State.setV_env (s : State) (x : Nibble) (b : Byte) : (s.setV x b).env = s.env := rfl

/-! ### `setRegs` -/

@[simp] theorem State.setRegs_v (s : State) (v : Vector Byte 16) : (s.setRegs v).v = v := rfl
@[simp] theorem State.setRegs_i (s : State) (v : Vector Byte 16) : (s.setRegs v).i = s.i := rfl
@[simp] theorem State.setRegs_pc (s : State) (v : Vector Byte 16) : (s.setRegs v).pc = s.pc := rfl
@[simp] theorem State.setRegs_dt (s : State) (v : Vector Byte 16) : (s.setRegs v).dt = s.dt := rfl
@[simp] theorem State.setRegs_st (s : State) (v : Vector Byte 16) : (s.setRegs v).st = s.st := rfl
@[simp] theorem State.setRegs_stack (s : State) (v : Vector Byte 16) : (s.setRegs v).stack = s.stack := rfl
@[simp] theorem State.setRegs_sp (s : State) (v : Vector Byte 16) : (s.setRegs v).sp = s.sp := rfl
@[simp] theorem State.setRegs_mem (s : State) (v : Vector Byte 16) : (s.setRegs v).mem = s.mem := rfl
@[simp] theorem State.setRegs_fb (s : State) (v : Vector Byte 16) : (s.setRegs v).fb = s.fb := rfl
@[simp] theorem State.setRegs_status (s : State) (v : Vector Byte 16) : (s.setRegs v).status = s.status := rfl
@[simp] theorem State.setRegs_env (s : State) (v : Vector Byte 16) : (s.setRegs v).env = s.env := rfl

/-! ### `setI` -/

@[simp] theorem State.setI_v (s : State) (w : Word) : (s.setI w).v = s.v := rfl
@[simp] theorem State.setI_i (s : State) (w : Word) : (s.setI w).i = w := rfl
@[simp] theorem State.setI_pc (s : State) (w : Word) : (s.setI w).pc = s.pc := rfl
@[simp] theorem State.setI_dt (s : State) (w : Word) : (s.setI w).dt = s.dt := rfl
@[simp] theorem State.setI_st (s : State) (w : Word) : (s.setI w).st = s.st := rfl
@[simp] theorem State.setI_stack (s : State) (w : Word) : (s.setI w).stack = s.stack := rfl
@[simp] theorem State.setI_sp (s : State) (w : Word) : (s.setI w).sp = s.sp := rfl
@[simp] theorem State.setI_mem (s : State) (w : Word) : (s.setI w).mem = s.mem := rfl
@[simp] theorem State.setI_fb (s : State) (w : Word) : (s.setI w).fb = s.fb := rfl
@[simp] theorem State.setI_status (s : State) (w : Word) : (s.setI w).status = s.status := rfl
@[simp] theorem State.setI_env (s : State) (w : Word) : (s.setI w).env = s.env := rfl
@[simp] theorem State.getV_setI (s : State) (w : Word) (r : Nibble) : (s.setI w).getV r = s.getV r := rfl

/-! ### `setPc` -/

@[simp] theorem State.setPc_v (s : State) (w : Word) : (s.setPc w).v = s.v := rfl
@[simp] theorem State.setPc_i (s : State) (w : Word) : (s.setPc w).i = s.i := rfl
@[simp] theorem State.setPc_pc (s : State) (w : Word) : (s.setPc w).pc = w := rfl
@[simp] theorem State.setPc_dt (s : State) (w : Word) : (s.setPc w).dt = s.dt := rfl
@[simp] theorem State.setPc_st (s : State) (w : Word) : (s.setPc w).st = s.st := rfl
@[simp] theorem State.setPc_stack (s : State) (w : Word) : (s.setPc w).stack = s.stack := rfl
@[simp] theorem State.setPc_sp (s : State) (w : Word) : (s.setPc w).sp = s.sp := rfl
@[simp] theorem State.setPc_mem (s : State) (w : Word) : (s.setPc w).mem = s.mem := rfl
@[simp] theorem State.setPc_fb (s : State) (w : Word) : (s.setPc w).fb = s.fb := rfl
@[simp] theorem State.setPc_status (s : State) (w : Word) : (s.setPc w).status = s.status := rfl
@[simp] theorem State.setPc_env (s : State) (w : Word) : (s.setPc w).env = s.env := rfl
@[simp] theorem State.getV_setPc (s : State) (w : Word) (r : Nibble) : (s.setPc w).getV r = s.getV r := rfl

/-! ### `setDt` -/

@[simp] theorem State.setDt_v (s : State) (b : Byte) : (s.setDt b).v = s.v := rfl
@[simp] theorem State.setDt_i (s : State) (b : Byte) : (s.setDt b).i = s.i := rfl
@[simp] theorem State.setDt_pc (s : State) (b : Byte) : (s.setDt b).pc = s.pc := rfl
@[simp] theorem State.setDt_dt (s : State) (b : Byte) : (s.setDt b).dt = b := rfl
@[simp] theorem State.setDt_st (s : State) (b : Byte) : (s.setDt b).st = s.st := rfl
@[simp] theorem State.setDt_stack (s : State) (b : Byte) : (s.setDt b).stack = s.stack := rfl
@[simp] theorem State.setDt_sp (s : State) (b : Byte) : (s.setDt b).sp = s.sp := rfl
@[simp] theorem State.setDt_mem (s : State) (b : Byte) : (s.setDt b).mem = s.mem := rfl
@[simp] theorem State.setDt_fb (s : State) (b : Byte) : (s.setDt b).fb = s.fb := rfl
@[simp] theorem State.setDt_status (s : State) (b : Byte) : (s.setDt b).status = s.status := rfl
@[simp] theorem State.setDt_env (s : State) (b : Byte) : (s.setDt b).env = s.env := rfl
@[simp] theorem State.getV_setDt (s : State) (b : Byte) (r : Nibble) : (s.setDt b).getV r = s.getV r := rfl

/-! ### `setSt` -/

@[simp] theorem State.setSt_v (s : State) (b : Byte) : (s.setSt b).v = s.v := rfl
@[simp] theorem State.setSt_i (s : State) (b : Byte) : (s.setSt b).i = s.i := rfl
@[simp] theorem State.setSt_pc (s : State) (b : Byte) : (s.setSt b).pc = s.pc := rfl
@[simp] theorem State.setSt_dt (s : State) (b : Byte) : (s.setSt b).dt = s.dt := rfl
@[simp] theorem State.setSt_st (s : State) (b : Byte) : (s.setSt b).st = b := rfl
@[simp] theorem State.setSt_stack (s : State) (b : Byte) : (s.setSt b).stack = s.stack := rfl
@[simp] theorem State.setSt_sp (s : State) (b : Byte) : (s.setSt b).sp = s.sp := rfl
@[simp] theorem State.setSt_mem (s : State) (b : Byte) : (s.setSt b).mem = s.mem := rfl
@[simp] theorem State.setSt_fb (s : State) (b : Byte) : (s.setSt b).fb = s.fb := rfl
@[simp] theorem State.setSt_status (s : State) (b : Byte) : (s.setSt b).status = s.status := rfl
@[simp] theorem State.setSt_env (s : State) (b : Byte) : (s.setSt b).env = s.env := rfl
@[simp] theorem State.getV_setSt (s : State) (b : Byte) (r : Nibble) : (s.setSt b).getV r = s.getV r := rfl

/-! ### `setStack` -/

@[simp] theorem State.setStack_v (s : State) (k : Vector Word 16) (n : Fin 17) : (s.setStack k n).v = s.v := rfl
@[simp] theorem State.setStack_i (s : State) (k : Vector Word 16) (n : Fin 17) : (s.setStack k n).i = s.i := rfl
@[simp] theorem State.setStack_pc (s : State) (k : Vector Word 16) (n : Fin 17) : (s.setStack k n).pc = s.pc := rfl
@[simp] theorem State.setStack_dt (s : State) (k : Vector Word 16) (n : Fin 17) : (s.setStack k n).dt = s.dt := rfl
@[simp] theorem State.setStack_st (s : State) (k : Vector Word 16) (n : Fin 17) : (s.setStack k n).st = s.st := rfl
@[simp] theorem State.setStack_stack (s : State) (k : Vector Word 16) (n : Fin 17) : (s.setStack k n).stack = k := rfl
@[simp] theorem State.setStack_sp (s : State) (k : Vector Word 16) (n : Fin 17) : (s.setStack k n).sp = n := rfl
@[simp] theorem State.setStack_mem (s : State) (k : Vector Word 16) (n : Fin 17) : (s.setStack k n).mem = s.mem := rfl
@[simp] theorem State.setStack_fb (s : State) (k : Vector Word 16) (n : Fin 17) : (s.setStack k n).fb = s.fb := rfl
@[simp] theorem State.setStack_status (s : State) (k : Vector Word 16) (n : Fin 17) : (s.setStack k n).status = s.status := rfl
@[simp] theorem State.setStack_env (s : State) (k : Vector Word 16) (n : Fin 17) : (s.setStack k n).env = s.env := rfl
@[simp] theorem State.getV_setStack (s : State) (k : Vector Word 16) (n : Fin 17) (r : Nibble) : (s.setStack k n).getV r = s.getV r := rfl

/-! ### `setMem` -/

@[simp] theorem State.setMem_v (s : State) (m : Memory) : (s.setMem m).v = s.v := rfl
@[simp] theorem State.setMem_i (s : State) (m : Memory) : (s.setMem m).i = s.i := rfl
@[simp] theorem State.setMem_pc (s : State) (m : Memory) : (s.setMem m).pc = s.pc := rfl
@[simp] theorem State.setMem_dt (s : State) (m : Memory) : (s.setMem m).dt = s.dt := rfl
@[simp] theorem State.setMem_st (s : State) (m : Memory) : (s.setMem m).st = s.st := rfl
@[simp] theorem State.setMem_stack (s : State) (m : Memory) : (s.setMem m).stack = s.stack := rfl
@[simp] theorem State.setMem_sp (s : State) (m : Memory) : (s.setMem m).sp = s.sp := rfl
@[simp] theorem State.setMem_mem (s : State) (m : Memory) : (s.setMem m).mem = m := rfl
@[simp] theorem State.setMem_fb (s : State) (m : Memory) : (s.setMem m).fb = s.fb := rfl
@[simp] theorem State.setMem_status (s : State) (m : Memory) : (s.setMem m).status = s.status := rfl
@[simp] theorem State.setMem_env (s : State) (m : Memory) : (s.setMem m).env = s.env := rfl
@[simp] theorem State.getV_setMem (s : State) (m : Memory) (r : Nibble) : (s.setMem m).getV r = s.getV r := rfl

/-! ### `setFb` -/

@[simp] theorem State.setFb_v (s : State) (fb : Screen) : (s.setFb fb).v = s.v := rfl
@[simp] theorem State.setFb_i (s : State) (fb : Screen) : (s.setFb fb).i = s.i := rfl
@[simp] theorem State.setFb_pc (s : State) (fb : Screen) : (s.setFb fb).pc = s.pc := rfl
@[simp] theorem State.setFb_dt (s : State) (fb : Screen) : (s.setFb fb).dt = s.dt := rfl
@[simp] theorem State.setFb_st (s : State) (fb : Screen) : (s.setFb fb).st = s.st := rfl
@[simp] theorem State.setFb_stack (s : State) (fb : Screen) : (s.setFb fb).stack = s.stack := rfl
@[simp] theorem State.setFb_sp (s : State) (fb : Screen) : (s.setFb fb).sp = s.sp := rfl
@[simp] theorem State.setFb_mem (s : State) (fb : Screen) : (s.setFb fb).mem = s.mem := rfl
@[simp] theorem State.setFb_fb (s : State) (fb : Screen) : (s.setFb fb).fb = fb := rfl
@[simp] theorem State.setFb_status (s : State) (fb : Screen) : (s.setFb fb).status = s.status := rfl
@[simp] theorem State.setFb_env (s : State) (fb : Screen) : (s.setFb fb).env = s.env := rfl
@[simp] theorem State.getV_setFb (s : State) (fb : Screen) (r : Nibble) : (s.setFb fb).getV r = s.getV r := rfl

/-! ### `setStatus` -/

@[simp] theorem State.setStatus_v (s : State) (u : Status) : (s.setStatus u).v = s.v := rfl
@[simp] theorem State.setStatus_i (s : State) (u : Status) : (s.setStatus u).i = s.i := rfl
@[simp] theorem State.setStatus_pc (s : State) (u : Status) : (s.setStatus u).pc = s.pc := rfl
@[simp] theorem State.setStatus_dt (s : State) (u : Status) : (s.setStatus u).dt = s.dt := rfl
@[simp] theorem State.setStatus_st (s : State) (u : Status) : (s.setStatus u).st = s.st := rfl
@[simp] theorem State.setStatus_stack (s : State) (u : Status) : (s.setStatus u).stack = s.stack := rfl
@[simp] theorem State.setStatus_sp (s : State) (u : Status) : (s.setStatus u).sp = s.sp := rfl
@[simp] theorem State.setStatus_mem (s : State) (u : Status) : (s.setStatus u).mem = s.mem := rfl
@[simp] theorem State.setStatus_fb (s : State) (u : Status) : (s.setStatus u).fb = s.fb := rfl
@[simp] theorem State.setStatus_status (s : State) (u : Status) : (s.setStatus u).status = u := rfl
@[simp] theorem State.setStatus_env (s : State) (u : Status) : (s.setStatus u).env = s.env := rfl
@[simp] theorem State.getV_setStatus (s : State) (u : Status) (r : Nibble) : (s.setStatus u).getV r = s.getV r := rfl

/-! ### `setEnv` -/

@[simp] theorem State.setEnv_v (s : State) (e : Env) : (s.setEnv e).v = s.v := rfl
@[simp] theorem State.setEnv_i (s : State) (e : Env) : (s.setEnv e).i = s.i := rfl
@[simp] theorem State.setEnv_pc (s : State) (e : Env) : (s.setEnv e).pc = s.pc := rfl
@[simp] theorem State.setEnv_dt (s : State) (e : Env) : (s.setEnv e).dt = s.dt := rfl
@[simp] theorem State.setEnv_st (s : State) (e : Env) : (s.setEnv e).st = s.st := rfl
@[simp] theorem State.setEnv_stack (s : State) (e : Env) : (s.setEnv e).stack = s.stack := rfl
@[simp] theorem State.setEnv_sp (s : State) (e : Env) : (s.setEnv e).sp = s.sp := rfl
@[simp] theorem State.setEnv_mem (s : State) (e : Env) : (s.setEnv e).mem = s.mem := rfl
@[simp] theorem State.setEnv_fb (s : State) (e : Env) : (s.setEnv e).fb = s.fb := rfl
@[simp] theorem State.setEnv_status (s : State) (e : Env) : (s.setEnv e).status = s.status := rfl
@[simp] theorem State.setEnv_env (s : State) (e : Env) : (s.setEnv e).env = e := rfl
@[simp] theorem State.getV_setEnv (s : State) (e : Env) (r : Nibble) : (s.setEnv e).getV r = s.getV r := rfl

/-! ### `advance` -/

@[simp] theorem State.advance_v (s : State) : s.advance.v = s.v := rfl
@[simp] theorem State.advance_i (s : State) : s.advance.i = s.i := rfl
@[simp] theorem State.advance_pc (s : State) : s.advance.pc = s.pc + 2#16 := rfl
@[simp] theorem State.advance_dt (s : State) : s.advance.dt = s.dt := rfl
@[simp] theorem State.advance_st (s : State) : s.advance.st = s.st := rfl
@[simp] theorem State.advance_stack (s : State) : s.advance.stack = s.stack := rfl
@[simp] theorem State.advance_sp (s : State) : s.advance.sp = s.sp := rfl
@[simp] theorem State.advance_mem (s : State) : s.advance.mem = s.mem := rfl
@[simp] theorem State.advance_fb (s : State) : s.advance.fb = s.fb := rfl
@[simp] theorem State.advance_status (s : State) : s.advance.status = s.status := rfl
@[simp] theorem State.advance_env (s : State) : s.advance.env = s.env := rfl
@[simp] theorem State.getV_advance (s : State) (r : Nibble) : s.advance.getV r = s.getV r := rfl

/-! ### `skipIf` -/

@[simp] theorem State.skipIf_v (s : State) (c : Bool) : (s.skipIf c).v = s.v := rfl
@[simp] theorem State.skipIf_i (s : State) (c : Bool) : (s.skipIf c).i = s.i := rfl
@[simp] theorem State.skipIf_pc (s : State) (c : Bool) : (s.skipIf c).pc = if c then s.pc + 2#16 else s.pc := rfl
@[simp] theorem State.skipIf_dt (s : State) (c : Bool) : (s.skipIf c).dt = s.dt := rfl
@[simp] theorem State.skipIf_st (s : State) (c : Bool) : (s.skipIf c).st = s.st := rfl
@[simp] theorem State.skipIf_stack (s : State) (c : Bool) : (s.skipIf c).stack = s.stack := rfl
@[simp] theorem State.skipIf_sp (s : State) (c : Bool) : (s.skipIf c).sp = s.sp := rfl
@[simp] theorem State.skipIf_mem (s : State) (c : Bool) : (s.skipIf c).mem = s.mem := rfl
@[simp] theorem State.skipIf_fb (s : State) (c : Bool) : (s.skipIf c).fb = s.fb := rfl
@[simp] theorem State.skipIf_status (s : State) (c : Bool) : (s.skipIf c).status = s.status := rfl
@[simp] theorem State.skipIf_env (s : State) (c : Bool) : (s.skipIf c).env = s.env := rfl
@[simp] theorem State.getV_skipIf (s : State) (c : Bool) (r : Nibble) : (s.skipIf c).getV r = s.getV r := rfl

/-! ### `setFlag` -/

@[simp] theorem State.setFlag_v (s : State) (c : Bool) : (s.setFlag c).v = s.v.set 15 (flagByte c) := rfl
@[simp] theorem State.setFlag_i (s : State) (c : Bool) : (s.setFlag c).i = s.i := rfl
@[simp] theorem State.setFlag_pc (s : State) (c : Bool) : (s.setFlag c).pc = s.pc := rfl
@[simp] theorem State.setFlag_dt (s : State) (c : Bool) : (s.setFlag c).dt = s.dt := rfl
@[simp] theorem State.setFlag_st (s : State) (c : Bool) : (s.setFlag c).st = s.st := rfl
@[simp] theorem State.setFlag_stack (s : State) (c : Bool) : (s.setFlag c).stack = s.stack := rfl
@[simp] theorem State.setFlag_sp (s : State) (c : Bool) : (s.setFlag c).sp = s.sp := rfl
@[simp] theorem State.setFlag_mem (s : State) (c : Bool) : (s.setFlag c).mem = s.mem := rfl
@[simp] theorem State.setFlag_fb (s : State) (c : Bool) : (s.setFlag c).fb = s.fb := rfl
@[simp] theorem State.setFlag_status (s : State) (c : Bool) : (s.setFlag c).status = s.status := rfl
@[simp] theorem State.setFlag_env (s : State) (c : Bool) : (s.setFlag c).env = s.env := rfl

/-! ### `setVFlag` -/

@[simp] theorem State.setVFlag_v (s : State) (x : Nibble) (b : Byte) (c : Bool) : (s.setVFlag x b c).v = (s.v.set x.toNat b x.isLt).set 15 (flagByte c) := rfl
@[simp] theorem State.setVFlag_i (s : State) (x : Nibble) (b : Byte) (c : Bool) : (s.setVFlag x b c).i = s.i := rfl
@[simp] theorem State.setVFlag_pc (s : State) (x : Nibble) (b : Byte) (c : Bool) : (s.setVFlag x b c).pc = s.pc := rfl
@[simp] theorem State.setVFlag_dt (s : State) (x : Nibble) (b : Byte) (c : Bool) : (s.setVFlag x b c).dt = s.dt := rfl
@[simp] theorem State.setVFlag_st (s : State) (x : Nibble) (b : Byte) (c : Bool) : (s.setVFlag x b c).st = s.st := rfl
@[simp] theorem State.setVFlag_stack (s : State) (x : Nibble) (b : Byte) (c : Bool) : (s.setVFlag x b c).stack = s.stack := rfl
@[simp] theorem State.setVFlag_sp (s : State) (x : Nibble) (b : Byte) (c : Bool) : (s.setVFlag x b c).sp = s.sp := rfl
@[simp] theorem State.setVFlag_mem (s : State) (x : Nibble) (b : Byte) (c : Bool) : (s.setVFlag x b c).mem = s.mem := rfl
@[simp] theorem State.setVFlag_fb (s : State) (x : Nibble) (b : Byte) (c : Bool) : (s.setVFlag x b c).fb = s.fb := rfl
@[simp] theorem State.setVFlag_status (s : State) (x : Nibble) (b : Byte) (c : Bool) : (s.setVFlag x b c).status = s.status := rfl
@[simp] theorem State.setVFlag_env (s : State) (x : Nibble) (b : Byte) (c : Bool) : (s.setVFlag x b c).env = s.env := rfl

/-! ### `rndTaken` -/

@[simp] theorem State.rndTaken_v (s : State) : s.rndTaken.v = s.v := rfl
@[simp] theorem State.rndTaken_i (s : State) : s.rndTaken.i = s.i := rfl
@[simp] theorem State.rndTaken_pc (s : State) : s.rndTaken.pc = s.pc := rfl
@[simp] theorem State.rndTaken_dt (s : State) : s.rndTaken.dt = s.dt := rfl
@[simp] theorem State.rndTaken_st (s : State) : s.rndTaken.st = s.st := rfl
@[simp] theorem State.rndTaken_stack (s : State) : s.rndTaken.stack = s.stack := rfl
@[simp] theorem State.rndTaken_sp (s : State) : s.rndTaken.sp = s.sp := rfl
@[simp] theorem State.rndTaken_mem (s : State) : s.rndTaken.mem = s.mem := rfl
@[simp] theorem State.rndTaken_fb (s : State) : s.rndTaken.fb = s.fb := rfl
@[simp] theorem State.rndTaken_status (s : State) : s.rndTaken.status = s.status := rfl
@[simp] theorem State.rndTaken_env (s : State) : s.rndTaken.env = { s.env with rndDraws := s.env.rndDraws.tail, rndCount := s.env.rndCount + 1 } := rfl
@[simp] theorem State.getV_rndTaken (s : State) (r : Nibble) : s.rndTaken.getV r = s.getV r := rfl

/-! ### `keysTaken` -/

@[simp] theorem State.keysTaken_v (s : State) : s.keysTaken.v = s.v := rfl
@[simp] theorem State.keysTaken_i (s : State) : s.keysTaken.i = s.i := rfl
@[simp] theorem State.keysTaken_pc (s : State) : s.keysTaken.pc = s.pc := rfl
@[simp] theorem State.keysTaken_dt (s : State) : s.keysTaken.dt = s.dt := rfl
@[simp] theorem State.keysTaken_st (s : State) : s.keysTaken.st = s.st := rfl
@[simp] theorem State.keysTaken_stack (s : State) : s.keysTaken.stack = s.stack := rfl
@[simp] theorem State.keysTaken_sp (s : State) : s.keysTaken.sp = s.sp := rfl
@[simp] theorem State.keysTaken_mem (s : State) : s.keysTaken.mem = s.mem := rfl
@[simp] theorem State.keysTaken_fb (s : State) : s.keysTaken.fb = s.fb := rfl
@[simp] theorem State.keysTaken_status (s : State) : s.keysTaken.status = s.status := rfl
@[simp] theorem State.keysTaken_env (s : State) : s.keysTaken.env = { s.env with keySamples := s.env.keySamples.tail, keyCount := s.env.keyCount + 1 } := rfl
@[simp] theorem State.getV_keysTaken (s : State) (r : Nibble) : s.keysTaken.getV r = s.getV r := rfl

/-! ### Registers read after a register write (R20, R22) -/

theorem State.getV_setV (s : State) (x r : Nibble) (b : Byte) :
    (s.setV x b).getV r = if r = x then b else s.getV r := by
  by_cases h : r = x
  · subst h; simp [State.getV]
  · have h' : x.toNat ≠ r.toNat := fun e => h (BitVec.eq_of_toNat_eq e.symm)
    simp only [State.getV, State.setV_v, if_neg h]
    exact Vector.getElem_set_ne _ _ h'

@[simp] theorem State.getV_setV_same (s : State) (x : Nibble) (b : Byte) : (s.setV x b).getV x = b := by
  simp [State.getV_setV]

theorem State.getV_setV_ne (s : State) (x r : Nibble) (b : Byte) (h : r ≠ x) :
    (s.setV x b).getV r = s.getV r := by
  simp [State.getV_setV, h]

theorem State.getV_setFlag (s : State) (r : Nibble) (c : Bool) :
    (s.setFlag c).getV r = if r = 0xF#4 then flagByte c else s.getV r :=
  State.getV_setV s 0xF#4 r (flagByte c)

/-- The flag wins over the primary result when both go to `VF` (R22). -/
theorem State.getV_setVFlag (s : State) (x r : Nibble) (b : Byte) (c : Bool) :
    (s.setVFlag x b c).getV r = if r = 0xF#4 then flagByte c else if r = x then b else s.getV r := by
  simp [State.setVFlag, State.getV_setFlag, State.getV_setV]

/-- The register file read by number and as a list agree. -/
theorem State.getV_eq_getElem? (s : State) (x : Nibble) : s.getV x = s.v[x.toNat]?.getD 0#8 := by
  have h : x.toNat < 16 := x.isLt
  simp [State.getV, h]

/-- Two states with the same register reads have the same register file. -/
theorem State.v_ext (s t : State) (h : ∀ r : Nibble, t.getV r = s.getV r) : t.v = s.v := by
  apply Vector.ext
  intro j hj
  have := h (BitVec.ofNat 4 j)
  simpa [State.getV, Nat.mod_eq_of_lt hj] using this

/-! ### Flags -/

@[simp] theorem flagByte_true : flagByte true = 0x01#8 := rfl
@[simp] theorem flagByte_false : flagByte false = 0x00#8 := rfl

theorem flagByte_eq_one (c : Bool) : flagByte c = 0x01#8 ↔ c = true := by cases c <;> decide

end Sys2Proof.Machine
end

