-- ==== Sys2Proof/Laws/Decode.lean ====
section
/-! SUPPORT. Fields of encoded words, fields under a mask, the bytes of a word, and the decode of an encoded word
(spec/30_encoding.md R71 to R80). -/

namespace Sys2Proof

/-! ### The bits of each format (R72) -/

theorem getLsbD_encNNN (op : Nibble) (nnn : Addr) (j : Nat) :
    (encNNN op nnn).getLsbD j = if j < 12 then nnn.getLsbD j else op.getLsbD (j - 12) :=
  BitVec.getLsbD_append

theorem getLsbD_encXKK (op x : Nibble) (kk : Byte) (j : Nat) :
    (encXKK op x kk).getLsbD j =
      if j < 8 then kk.getLsbD j else if j - 8 < 4 then x.getLsbD (j - 8) else op.getLsbD (j - 8 - 4) :=
  (BitVec.getLsbD_append (x := op ++ x) (y := kk)).trans (by rw [BitVec.getLsbD_append])

theorem getLsbD_encXYN (op x y n : Nibble) (j : Nat) :
    (encXYN op x y n).getLsbD j =
      if j < 8 then (if j < 4 then n.getLsbD j else y.getLsbD (j - 4))
      else if j - 8 < 4 then x.getLsbD (j - 8) else op.getLsbD (j - 8 - 4) :=
  (BitVec.getLsbD_append (x := op ++ x) (y := y ++ n)).trans (by rw [BitVec.getLsbD_append, BitVec.getLsbD_append])

theorem getLsbD_wordOfBytes (hi lo : Byte) (j : Nat) :
    (wordOfBytes hi lo).getLsbD j = if j < 8 then lo.getLsbD j else hi.getLsbD (j - 8) :=
  BitVec.getLsbD_append

/-! ### The fields of each format -/

@[simp] theorem fieldOp_encNNN (op : Nibble) (nnn : Addr) : fieldOp (encNNN op nnn) = op := by
  apply BitVec.eq_of_getLsbD_eq; intro j hj
  simp only [fieldOp, BitVec.getLsbD_extractLsb', getLsbD_encNNN]
  simp [hj]

@[simp] theorem fieldNNN_encNNN (op : Nibble) (nnn : Addr) : fieldNNN (encNNN op nnn) = nnn := by
  apply BitVec.eq_of_getLsbD_eq; intro j hj
  simp only [fieldNNN, BitVec.getLsbD_extractLsb', getLsbD_encNNN]
  simp [hj]

@[simp] theorem fieldOp_encXKK (op x : Nibble) (kk : Byte) : fieldOp (encXKK op x kk) = op := by
  apply BitVec.eq_of_getLsbD_eq; intro j hj
  simp only [fieldOp, BitVec.getLsbD_extractLsb', getLsbD_encXKK]
  rw [if_neg (by omega), if_neg (by omega), show 12 + j - 8 - 4 = j by omega]
  simp [hj]

@[simp] theorem fieldX_encXKK (op x : Nibble) (kk : Byte) : fieldX (encXKK op x kk) = x := by
  apply BitVec.eq_of_getLsbD_eq; intro j hj
  simp only [fieldX, BitVec.getLsbD_extractLsb', getLsbD_encXKK]
  simp [hj]

@[simp] theorem fieldKK_encXKK (op x : Nibble) (kk : Byte) : fieldKK (encXKK op x kk) = kk := by
  apply BitVec.eq_of_getLsbD_eq; intro j hj
  simp only [fieldKK, BitVec.getLsbD_extractLsb', getLsbD_encXKK]
  simp [hj]

@[simp] theorem fieldOp_encXYN (op x y n : Nibble) : fieldOp (encXYN op x y n) = op := by
  apply BitVec.eq_of_getLsbD_eq; intro j hj
  simp only [fieldOp, BitVec.getLsbD_extractLsb', getLsbD_encXYN]
  rw [if_neg (by omega), if_neg (by omega), show 12 + j - 8 - 4 = j by omega]
  simp [hj]

@[simp] theorem fieldX_encXYN (op x y n : Nibble) : fieldX (encXYN op x y n) = x := by
  apply BitVec.eq_of_getLsbD_eq; intro j hj
  simp only [fieldX, BitVec.getLsbD_extractLsb', getLsbD_encXYN]
  simp [hj]

@[simp] theorem fieldY_encXYN (op x y n : Nibble) : fieldY (encXYN op x y n) = y := by
  apply BitVec.eq_of_getLsbD_eq; intro j hj
  simp only [fieldY, BitVec.getLsbD_extractLsb', getLsbD_encXYN]
  rw [if_pos (by omega), if_neg (by omega), show 4 + j - 4 = j by omega]
  simp [hj]

@[simp] theorem fieldN_encXYN (op x y n : Nibble) : fieldN (encXYN op x y n) = n := by
  apply BitVec.eq_of_getLsbD_eq; intro j hj
  simp only [fieldN, BitVec.getLsbD_extractLsb', getLsbD_encXYN]
  rw [if_pos (by omega), if_pos (by omega)]
  simp [hj]

/-! ### A word under a mask (R75): a field the mask fixes is the pattern's -/

theorem fieldOp_of_mask (w m p : Word) (h : w &&& m = p) (hm : fieldOp m = 0xF#4) : fieldOp w = fieldOp p := by
  subst h
  have e : fieldOp (w &&& m) = fieldOp w &&& fieldOp m := by simp [fieldOp, BitVec.extractLsb'_and]
  rw [e, hm]
  exact (BitVec.and_allOnes (x := fieldOp w)).symm

theorem fieldN_of_mask (w m p : Word) (h : w &&& m = p) (hm : fieldN m = 0xF#4) : fieldN w = fieldN p := by
  subst h
  have e : fieldN (w &&& m) = fieldN w &&& fieldN m := by simp [fieldN, BitVec.extractLsb'_and]
  rw [e, hm]
  exact (BitVec.and_allOnes (x := fieldN w)).symm

theorem fieldKK_of_mask (w m p : Word) (h : w &&& m = p) (hm : fieldKK m = 0xFF#8) : fieldKK w = fieldKK p := by
  subst h
  have e : fieldKK (w &&& m) = fieldKK w &&& fieldKK m := by simp [fieldKK, BitVec.extractLsb'_and]
  rw [e, hm]
  exact (BitVec.and_allOnes (x := fieldKK w)).symm

/-! ### The bytes of a word (R56) -/

@[simp] theorem wordOfBytes_high_low (w : Word) : wordOfBytes (highByte w) (lowByte w) = w := by
  apply BitVec.eq_of_getLsbD_eq; intro j hj
  simp only [getLsbD_wordOfBytes, highByte, lowByte, BitVec.getLsbD_extractLsb']
  by_cases h : j < 8
  · simp [h]
  · rw [if_neg h, show 8 + (j - 8) = j by omega]
    simp only [Bool.and_eq_right_iff_imp, decide_eq_true_eq]
    omega

@[simp] theorem highByte_wordOfBytes (hi lo : Byte) : highByte (wordOfBytes hi lo) = hi := by
  apply BitVec.eq_of_getLsbD_eq; intro j hj
  simp only [highByte, BitVec.getLsbD_extractLsb', getLsbD_wordOfBytes]
  simp [hj]

@[simp] theorem lowByte_wordOfBytes (hi lo : Byte) : lowByte (wordOfBytes hi lo) = lo := by
  apply BitVec.eq_of_getLsbD_eq; intro j hj
  simp only [lowByte, BitVec.getLsbD_extractLsb', getLsbD_wordOfBytes]
  simp [hj]

/-! ### Encoded words under the masks of R75 -/

theorem encNNN_mask (op : Nibble) (nnn : Addr) : encNNN op nnn &&& 0xF000#16 = encNNN op 0#12 := by
  apply BitVec.eq_of_getLsbD_eq; intro j hj
  simp only [BitVec.getLsbD_and, getLsbD_encNNN]
  interval_cases j <;> simp

theorem encXKK_mask (op x : Nibble) (kk : Byte) : encXKK op x kk &&& 0xF000#16 = encXKK op 0#4 0#8 := by
  apply BitVec.eq_of_getLsbD_eq; intro j hj
  simp only [BitVec.getLsbD_and, getLsbD_encXKK]
  interval_cases j <;> simp

theorem encXKK_mask_kk (op x : Nibble) (kk : Byte) : encXKK op x kk &&& 0xF0FF#16 = encXKK op 0#4 kk := by
  apply BitVec.eq_of_getLsbD_eq; intro j hj
  simp only [BitVec.getLsbD_and, getLsbD_encXKK]
  interval_cases j <;> simp

theorem encXYN_mask (op x y n : Nibble) : encXYN op x y n &&& 0xF000#16 = encXYN op 0#4 0#4 0#4 := by
  apply BitVec.eq_of_getLsbD_eq; intro j hj
  simp only [BitVec.getLsbD_and, getLsbD_encXYN]
  interval_cases j <;> simp

theorem encXYN_mask_n (op x y n : Nibble) : encXYN op x y n &&& 0xF00F#16 = encXYN op 0#4 0#4 n := by
  apply BitVec.eq_of_getLsbD_eq; intro j hj
  simp only [BitVec.getLsbD_and, getLsbD_encXYN]
  interval_cases j <;> simp

/-! ### A word is the encoding of its fields -/

theorem encNNN_fields (w : Word) : encNNN (fieldOp w) (fieldNNN w) = w := by
  apply BitVec.eq_of_getLsbD_eq; intro j hj
  simp only [getLsbD_encNNN, fieldOp, fieldNNN, BitVec.getLsbD_extractLsb']
  by_cases h : j < 12
  · simp [h]
  · rw [if_neg h, show 12 + (j - 12) = j by omega]
    simp only [Bool.and_eq_right_iff_imp, decide_eq_true_eq]
    omega

theorem encXKK_fields (w : Word) : encXKK (fieldOp w) (fieldX w) (fieldKK w) = w := by
  apply BitVec.eq_of_getLsbD_eq; intro j hj
  simp only [getLsbD_encXKK, fieldOp, fieldX, fieldKK, BitVec.getLsbD_extractLsb']
  interval_cases j <;> simp

theorem encXYN_fields (w : Word) : encXYN (fieldOp w) (fieldX w) (fieldY w) (fieldN w) = w := by
  apply BitVec.eq_of_getLsbD_eq; intro j hj
  simp only [getLsbD_encXYN, fieldOp, fieldX, fieldY, fieldN, BitVec.getLsbD_extractLsb']
  interval_cases j <;> simp

/-! ### Every row of the opcode map decodes to the instruction it builds (R75) -/

/-- A row of a family with no second level. -/
theorem encodedBy_op (op : Nibble) (p : Word) (build : Word → Instr) (hop : fieldOp p = op)
    (H : ∀ w, fieldOp w = op → decodeWord w = .ok (build w)) : Machine.EncodedBy 0xF000#16 p build :=
  fun w h => H w ((fieldOp_of_mask w _ _ h (by decide)).trans hop)

/-- A row of family 0x8. -/
theorem encodedBy_n (op n : Nibble) (p : Word) (build : Word → Instr) (hop : fieldOp p = op) (hn : fieldN p = n)
    (H : ∀ w, fieldOp w = op → fieldN w = n → decodeWord w = .ok (build w)) : Machine.EncodedBy 0xF00F#16 p build :=
  fun w h => H w ((fieldOp_of_mask w _ _ h (by decide)).trans hop) ((fieldN_of_mask w _ _ h (by decide)).trans hn)

/-- A row of family 0xE or 0xF. -/
theorem encodedBy_kk (op : Nibble) (kk : Byte) (p : Word) (build : Word → Instr) (hop : fieldOp p = op)
    (hkk : fieldKK p = kk) (H : ∀ w, fieldOp w = op → fieldKK w = kk → decodeWord w = .ok (build w)) :
    Machine.EncodedBy 0xF0FF#16 p build :=
  fun w h => H w ((fieldOp_of_mask w _ _ h (by decide)).trans hop) ((fieldKK_of_mask w _ _ h (by decide)).trans hkk)

/-- A row that fixes every bit. -/
theorem encodedBy_word (p : Word) (i : Instr) (H : decodeWord p = .ok i) :
    Machine.EncodedBy 0xFFFF#16 p (fun _ => i) := by
  intro w h
  have e : w &&& 0xFFFF#16 = w := BitVec.and_allOnes (x := w)
  rw [e] at h
  rw [h]; exact H

end Sys2Proof
end

