-- ==== Sys2Proof/Laws/Memory.lean ====
section
/-! SUPPORT. Memory: reading after writing, and the canonical form (spec/20_memory.md R54, R55, R60). -/

namespace Sys2Proof.Machine

theorem Memory.wfFrom_cons (lo k : Nat) (b : Byte) (rest : Memory) :
    Memory.wfFrom lo ((k, b) :: rest) = true ↔
      lo ≤ k ∧ k ≤ 0xFFF ∧ b ≠ Memory.resetByte k ∧ Memory.wfFrom (k + 1) rest = true := by
  simp [Memory.wfFrom, and_assoc]

/-- A canonical memory that starts later also starts earlier. -/
theorem Memory.wfFrom_mono (m : Memory) (lo lo' : Nat) (h : lo' ≤ lo) (hm : Memory.wfFrom lo m = true) :
    Memory.wfFrom lo' m = true := by
  cases m with
  | nil => rfl
  | cons c rest =>
    obtain ⟨k, b⟩ := c
    rw [Memory.wfFrom_cons] at *
    exact ⟨h.trans hm.1, hm.2⟩

/-- Below its first address a canonical memory lists nothing. -/
theorem Memory.read_below (m : Memory) (lo a : Nat) (hm : Memory.wfFrom lo m = true) (h : a < lo) :
    m.read a = Memory.resetByte a := by
  induction m generalizing lo with
  | nil => rfl
  | cons c rest ih =>
    obtain ⟨k, b⟩ := c
    rw [Memory.wfFrom_cons] at hm
    have hne : ¬ k = a := by omega
    simp only [Memory.read, if_neg hne]
    exact ih (k + 1) hm.2.2.2 (by omega)

theorem Memory.read_put_ne (m : Memory) (a x : Nat) (b : Byte) (h : x ≠ a) :
    (Memory.put m a b).read x = m.read x := by
  unfold Memory.put
  split
  · rfl
  · simp [Memory.read, h.symm]

/-- A write leaves every other address alone. -/
theorem Memory.read_write_ne (m : Memory) (a x : Nat) (b : Byte) (h : x ≠ a) :
    (m.write a b).read x = m.read x := by
  induction m with
  | nil => exact Memory.read_put_ne [] a x b h
  | cons c rest ih =>
    obtain ⟨k, d⟩ := c
    unfold Memory.write
    split
    · exact Memory.read_put_ne _ a x b h
    · split
      · next _ hk => rw [Memory.read_put_ne rest a x b h]; simp [Memory.read, ← hk, h.symm]
      · simp [Memory.read, ih]

theorem Memory.read_put_same (m : Memory) (a : Nat) (b : Byte) (h : m.read a = Memory.resetByte a) :
    (Memory.put m a b).read a = b := by
  unfold Memory.put
  split
  · next hb => rw [h, hb]
  · simp [Memory.read]

theorem Memory.read_write_same_from (m : Memory) (lo a : Nat) (b : Byte) (hm : Memory.wfFrom lo m = true) :
    (m.write a b).read a = b := by
  induction m generalizing lo with
  | nil => exact Memory.read_put_same [] a b rfl
  | cons c rest ih =>
    obtain ⟨k, d⟩ := c
    have hc := (Memory.wfFrom_cons lo k d rest).1 hm
    unfold Memory.write
    split
    · next hlt =>
      refine Memory.read_put_same _ a b (Memory.read_below _ k a ?_ hlt)
      exact (Memory.wfFrom_cons k k d rest).2 ⟨le_refl k, hc.2⟩
    · split
      · next _ hk => exact Memory.read_put_same rest a b (Memory.read_below rest (k + 1) a hc.2.2.2 (by omega))
      · next _ hk =>
        have hne : ¬ k = a := fun e => hk e.symm
        simp only [Memory.read, if_neg hne]
        exact ih (k + 1) hc.2.2.2

/-- A read after a write to the same address gives the value written. -/
theorem Memory.read_write_same (m : Memory) (a : Nat) (b : Byte) (hm : m.wf = true) : (m.write a b).read a = b :=
  Memory.read_write_same_from m 0 a b hm

theorem Memory.wfFrom_put (m : Memory) (lo a : Nat) (b : Byte) (hlo : lo ≤ a) (ha : a ≤ 0xFFF)
    (hm : Memory.wfFrom (a + 1) m = true) : Memory.wfFrom lo (Memory.put m a b) = true := by
  unfold Memory.put
  split
  · exact Memory.wfFrom_mono m (a + 1) lo (by omega) hm
  · next hb => exact (Memory.wfFrom_cons lo a b m).2 ⟨hlo, ha, hb, hm⟩

theorem Memory.wfFrom_write (m : Memory) (lo a : Nat) (b : Byte) (hlo : lo ≤ a) (ha : a ≤ 0xFFF)
    (hm : Memory.wfFrom lo m = true) : Memory.wfFrom lo (m.write a b) = true := by
  induction m generalizing lo with
  | nil => exact Memory.wfFrom_put [] lo a b hlo ha rfl
  | cons c rest ih =>
    obtain ⟨k, d⟩ := c
    have hc := (Memory.wfFrom_cons lo k d rest).1 hm
    unfold Memory.write
    split
    · exact Memory.wfFrom_put _ lo a b hlo ha ((Memory.wfFrom_cons (a + 1) k d rest).2 ⟨by omega, hc.2⟩)
    · split
      · next _ hk => subst hk; exact Memory.wfFrom_put rest lo a b hlo ha hc.2.2.2
      · exact (Memory.wfFrom_cons lo k d _).2 ⟨hc.1, hc.2.1, hc.2.2.1, ih (k + 1) (by omega) hc.2.2.2⟩

/-- A write inside the 4096-byte space keeps the canonical form. -/
theorem Memory.wf_write (m : Memory) (a : Nat) (b : Byte) (ha : a ≤ 0xFFF) (hm : m.wf = true) :
    (m.write a b).wf = true :=
  Memory.wfFrom_write m 0 a b (Nat.zero_le a) ha hm

/-- The empty memory, that of `State.reset`, is canonical. -/
@[simp] theorem Memory.wf_nil : Memory.wf [] = true := rfl

/-! ### Several bytes -/

theorem Memory.wf_writeBytes (bs : List Byte) (m : Memory) (a : Nat) (h : a + bs.length ≤ 0x1000)
    (hm : m.wf = true) : (m.writeBytes a bs).wf = true := by
  induction bs generalizing m a with
  | nil => exact hm
  | cons b bs ih =>
    simp only [List.length_cons] at h
    exact ih _ _ (by omega) (Memory.wf_write m a b (by omega) hm)

theorem Memory.read_writeBytes_outside (bs : List Byte) (m : Memory) (a x : Nat)
    (h : x < a ∨ a + bs.length ≤ x) : (m.writeBytes a bs).read x = m.read x := by
  induction bs generalizing m a with
  | nil => rfl
  | cons b bs ih =>
    simp only [List.length_cons] at h
    simp only [Memory.writeBytes]
    rw [ih _ _ (by omega), Memory.read_write_ne m a x b (by omega)]

theorem Memory.read_writeBytes_inside (bs : List Byte) (m : Memory) (a j : Nat) (hm : m.wf = true)
    (hr : a + bs.length ≤ 0x1000) (hj : j < bs.length) : (m.writeBytes a bs).read (a + j) = bs[j] := by
  induction bs generalizing m a j with
  | nil => simp at hj
  | cons b bs ih =>
    simp only [List.length_cons] at hr hj
    simp only [Memory.writeBytes]
    have hw := Memory.wf_write m a b (by omega) hm
    cases j with
    | zero =>
      rw [Memory.read_writeBytes_outside bs _ _ _ (by omega)]
      simpa using Memory.read_write_same m a b hm
    | succ j =>
      have := ih (m.write a b) (a + 1) j hw (by omega) (by omega)
      rw [show a + (j + 1) = a + 1 + j by omega, this]
      simp

@[simp] theorem Memory.length_readBytes (m : Memory) (a n : Nat) : (m.readBytes a n).length = n := by
  induction n generalizing a with
  | zero => rfl
  | succ n ih => simp [Memory.readBytes, ih]

theorem Memory.getElem?_readBytes (m : Memory) (a n j : Nat) (h : j < n) :
    (m.readBytes a n)[j]? = some (m.read (a + j)) := by
  induction n generalizing a j with
  | zero => omega
  | succ n ih =>
    cases j with
    | zero => simp [Memory.readBytes]
    | succ j =>
      simp only [Memory.readBytes, List.getElem?_cons_succ]
      rw [ih (a + 1) j (by omega)]
      congr 2; omega

/-! ### Equal memories are equal data -/

theorem Memory.ext_from (m m' : Memory) (lo : Nat) (hm : Memory.wfFrom lo m = true)
    (hm' : Memory.wfFrom lo m' = true) (h : ∀ a, m.read a = m'.read a) : m = m' := by
  induction m generalizing m' lo with
  | nil =>
    cases m' with
    | nil => rfl
    | cons c rest =>
      obtain ⟨k, b⟩ := c
      have hc := (Memory.wfFrom_cons lo k b rest).1 hm'
      have := h k
      simp only [Memory.read, if_true] at this
      exact absurd this.symm hc.2.2.1
  | cons c rest ih =>
    obtain ⟨k, b⟩ := c
    have hc := (Memory.wfFrom_cons lo k b rest).1 hm
    cases m' with
    | nil =>
      have := h k
      simp only [Memory.read, if_true] at this
      exact absurd this hc.2.2.1
    | cons c' rest' =>
      obtain ⟨k', b'⟩ := c'
      have hc' := (Memory.wfFrom_cons lo k' b' rest').1 hm'
      have hkk : k = k' := by
        rcases Nat.lt_trichotomy k k' with hlt | heq | hgt
        · have h1 := h k
          rw [Memory.read_below ((k', b') :: rest') k' k
            ((Memory.wfFrom_cons k' k' b' rest').2 ⟨le_refl k', hc'.2⟩) hlt] at h1
          simp only [Memory.read, if_true] at h1
          exact absurd h1 hc.2.2.1
        · exact heq
        · have h1 := h k'
          rw [Memory.read_below ((k, b) :: rest) k k'
            ((Memory.wfFrom_cons k k b rest).2 ⟨le_refl k, hc.2⟩) hgt] at h1
          simp only [Memory.read, if_true] at h1
          exact absurd h1.symm hc'.2.2.1
      subst hkk
      have hb : b = b' := by simpa [Memory.read] using h k
      subst hb
      have hrest : ∀ a, Memory.read rest a = Memory.read rest' a := by
        intro a
        by_cases hak : k = a
        · subst hak
          rw [Memory.read_below rest (k + 1) k hc.2.2.2 (by omega),
            Memory.read_below rest' (k + 1) k hc'.2.2.2 (by omega)]
        · simpa [Memory.read, hak] using h a
      rw [ih rest' (k + 1) hc.2.2.2 hc'.2.2.2 hrest]

/-- Two canonical memories that read the same everywhere are the same list. -/
theorem Memory.ext (m m' : Memory) (hm : m.wf = true) (hm' : m'.wf = true) (h : ∀ a, m.read a = m'.read a) :
    m = m' :=
  Memory.ext_from m m' 0 hm hm' h

/-! ### The checked accesses (R54, R55, R59) -/

theorem rangeFault_eq_none (base n : Nat) : rangeFault base n = none ↔ n = 0 ∨ base + n ≤ 0x1000 := by
  unfold rangeFault; split <;> simp_all

theorem rangeFault_eq_some (base n : Nat) (f : Fault) :
    rangeFault base n = some f ↔ ¬ (n = 0 ∨ base + n ≤ 0x1000) ∧ f = .outOfRange (max base 0x1000) := by
  unfold rangeFault
  split
  · next h => simp [h]
  · next h => simp only [Option.some.injEq, h, not_false_eq_true, true_and, eq_comm]

/-- `InRange` is what the range check tests. -/
theorem inRange_iff (base n : Nat) : InRange base n ↔ n = 0 ∨ base + n ≤ 0x1000 := by
  unfold InRange; omega

theorem readChecked_ok (m : Memory) (base n : Nat) (bs : List Byte) :
    readChecked m base n = .ok bs ↔ InRange base n ∧ bs = m.readBytes base n := by
  rw [inRange_iff]
  unfold readChecked
  split
  · next f h => rw [rangeFault_eq_some] at h; simp [h.1]
  · next h => rw [rangeFault_eq_none] at h; simp [h, eq_comm]

theorem readChecked_error (m : Memory) (base n : Nat) (f : Fault) :
    readChecked m base n = .error f ↔ ¬ InRange base n ∧ f = .outOfRange (max base 0x1000) := by
  rw [inRange_iff]
  unfold readChecked
  split
  · next g h => rw [rangeFault_eq_some] at h; simp [h.1, h.2, eq_comm]
  · next h => rw [rangeFault_eq_none] at h; simp [h]

theorem writeChecked_ok (m m' : Memory) (base : Nat) (bs : List Byte) :
    writeChecked m base bs = .ok m' ↔ InRange base bs.length ∧ m' = m.writeBytes base bs := by
  rw [inRange_iff]
  unfold writeChecked
  split
  · next f h => rw [rangeFault_eq_some] at h; exact ⟨nofun, fun e => absurd e.1 h.1⟩
  · next h =>
    rw [rangeFault_eq_none] at h
    exact ⟨fun e => ⟨h, (Except.ok.inj e).symm⟩, fun e => by rw [e.2]⟩

theorem writeChecked_error (m : Memory) (base : Nat) (bs : List Byte) (f : Fault) :
    writeChecked m base bs = .error f ↔ ¬ InRange base bs.length ∧ f = .outOfRange (max base 0x1000) := by
  rw [inRange_iff]
  unfold writeChecked
  split
  · next g h =>
    rw [rangeFault_eq_some] at h
    exact ⟨fun e => ⟨h.1, (Except.error.inj e) ▸ h.2⟩, fun e => by rw [e.2, h.2]⟩
  · next h => rw [rangeFault_eq_none] at h; exact ⟨nofun, fun e => absurd h e.1⟩

theorem memRead2_ok (m : Memory) (a : Nat) (w : Word) :
    memRead2 m a = .ok w ↔ a ≤ 0xFFE ∧ w = m.read a ++ m.read (a + 1) := by
  unfold memRead2 wordOfBytes
  split
  · next f h => rw [rangeFault_eq_some] at h; simp only [reduceCtorEq, false_iff, not_and]; omega
  · next h =>
    rw [rangeFault_eq_none] at h
    have : a ≤ 0xFFE := by omega
    simp [this, eq_comm]

theorem memRead2_error (m : Memory) (a : Nat) (f : Fault) :
    memRead2 m a = .error f ↔ 0xFFE < a ∧ f = .outOfRange (max a 0x1000) := by
  unfold memRead2
  split
  · next g h =>
    rw [rangeFault_eq_some] at h
    have : 0xFFE < a := by omega
    simp [h.2, this, eq_comm]
  · next h => rw [rangeFault_eq_none] at h; simp only [reduceCtorEq, false_iff, not_and]; omega

end Sys2Proof.Machine
end

