-- ==== Sys2Proof/Laws/Display.lean ====
section
/-! SUPPORT. The sprite blitter pixel by pixel (spec/43_display.md R153 to R155). -/

namespace Sys2Proof.Machine

/-! ### The row pattern (R153) -/

/-- A byte at the left edge of a 64-bit row: its bits, then zeros. -/
theorem getMsbD_leftByte (b : Byte) (c : Nat) : (b ++ 0#56 : BitVec 64).getMsbD c = b.getMsbD c := by
  refine (BitVec.getMsbD_append (x := b) (y := 0#56) (i := c)).trans ?_
  by_cases h : 8 ≤ c
  · rw [if_pos h]; simp [BitVec.getMsbD, h]
  · rw [if_neg h]

/-- The pixel at column `c` is the sprite bit `(c - x0) mod 64` columns from the left. -/
theorem rowPattern_getMsbD (b x0 : Byte) (c : Nat) (hc : c < 64) :
    (rowPattern b x0).getMsbD c = b.getMsbD ((c + (64 - x0.toNat % 64)) % 64) := by
  have hx : x0.toNat % 64 < 64 := Nat.mod_lt _ (by omega)
  unfold rowPattern
  rw [BitVec.getMsbD_rotateRight, Nat.mod_mod, getMsbD_leftByte, getMsbD_leftByte]
  by_cases h : c < x0.toNat % 64
  · rw [if_pos h, show (64 + c - x0.toNat % 64) % 64 = (c + (64 - x0.toNat % 64)) % 64 by omega]
    simp [hc]
  · rw [if_neg h, show c - x0.toNat % 64 = (c + (64 - x0.toNat % 64)) % 64 by omega]
    simp [hc]

/-- The rule as the spec writes it: the pixel at column `(x0 + j) mod 64` is bit `7 - j` of the byte, for `j` in
0..7, and every other column is 0. -/
theorem rowPattern_pixel (b x0 : Byte) (c : Nat) (hc : c < 64) :
    (rowPattern b x0).getMsbD c = true ↔
      ∃ j : Nat, j < 8 ∧ c = (x0.toNat + j) % 64 ∧ b.getLsbD (7 - j) = true := by
  have hx : x0.toNat % 64 < 64 := Nat.mod_lt _ (by omega)
  rw [rowPattern_getMsbD b x0 c hc]
  simp only [BitVec.getMsbD, Bool.and_eq_true, decide_eq_true_eq]
  constructor
  · rintro ⟨hj, hb⟩
    exact ⟨_, hj, by omega, by simpa using hb⟩
  · rintro ⟨j, hj, hcj, hb⟩
    have e : (c + (64 - x0.toNat % 64)) % 64 = j := by omega
    rw [e]
    exact ⟨hj, by simpa using hb⟩

/-! ### Rows of the framebuffer -/

theorem Screen.row_setRow (fb : Screen) (r q : Nat) (w : BitVec 64) (hq : q < 32) :
    Screen.row (Screen.setRow fb r w) q = if q = r then w else Screen.row fb q := by
  by_cases h : q = r
  · subst h; simp [Screen.row, Screen.setRow, hq]
  · have h' : r ≠ q := fun e => h e.symm
    simp [Screen.row, Screen.setRow, h, h']

/-- Two framebuffers with the same pixels are the same data. -/
theorem Screen.ext (fb fb' : Screen) (h : ∀ r c, r < 32 → c < 64 → Screen.pixel fb r c = Screen.pixel fb' r c) :
    fb = fb' := by
  apply Vector.ext
  intro r hr
  apply BitVec.eq_of_getMsbD_eq
  intro c hc
  simpa [Screen.pixel, Screen.row, hr] using h r c hr hc

/-! ### The drawing -/

/-- The sprite rows drawn at rows `r`, `r + 1`, ... leave every pixel XORed with the row pattern of its row, and the
pixels of every other row as they were. -/
theorem drawRows_pixel (bs : List Byte) (fb : Screen) (x0 : Byte) (r q c : Nat) (hq : q < 32) :
    Screen.pixel (drawRows fb x0 r bs).1 q c =
      (Screen.pixel fb q c ^^
        (decide (r ≤ q ∧ q < r + bs.length) && (rowPattern (bs[q - r]?.getD 0#8) x0).getMsbD c)) := by
  induction bs generalizing fb r with
  | nil =>
    have : ¬ (r ≤ q ∧ q < r + 0) := by omega
    rw [List.length_nil, decide_eq_false this]; simp [drawRows]
  | cons b bs ih =>
    simp only [drawRows, List.length_cons]
    by_cases hr : 31 < r
    · have : ¬ (r ≤ q ∧ q < r + (bs.length + 1)) := by omega
      rw [if_pos hr, decide_eq_false this]; simp
    · simp only [if_neg hr]
      rw [ih]
      simp only [Screen.pixel, Screen.row_setRow _ _ _ _ hq]
      by_cases hqr : q = r
      · subst hqr
        have h1 : ¬ (q + 1 ≤ q ∧ q < q + 1 + bs.length) := by omega
        have h2 : q ≤ q ∧ q < q + (bs.length + 1) := by omega
        rw [decide_eq_false h1, decide_eq_true h2]; simp [BitVec.getMsbD_xor]
      · by_cases hin : r ≤ q ∧ q < r + (bs.length + 1)
        · have h1 : r + 1 ≤ q ∧ q < r + 1 + bs.length := by omega
          have h2 : (b :: bs)[q - r]? = bs[q - (r + 1)]? := by
            rw [show q - r = q - (r + 1) + 1 by omega]; simp
          rw [decide_eq_true h1, decide_eq_true hin, if_neg hqr, h2]
        · have h1 : ¬ (r + 1 ≤ q ∧ q < r + 1 + bs.length) := by omega
          rw [decide_eq_false h1, decide_eq_false hin, if_neg hqr]; simp

/-- A nonzero 64-bit row has a set column. -/
theorem row_ne_zero (w : BitVec 64) : w ≠ 0#64 ↔ ∃ c, c < 64 ∧ w.getMsbD c = true := by
  constructor
  · intro h
    by_contra hn
    apply h
    apply BitVec.eq_of_getMsbD_eq
    intro c hc
    simp only [not_exists, not_and, Bool.not_eq_true] at hn
    simp [hn c hc]
  · rintro ⟨c, _, hb⟩ rfl
    simp at hb

/-- The collision: some pixel of a drawn row was 1 and has a 1 in the row pattern (R155). -/
theorem drawRows_collision (bs : List Byte) (fb : Screen) (x0 : Byte) (r : Nat) :
    (drawRows fb x0 r bs).2 = true ↔
      ∃ q c, q < 32 ∧ c < 64 ∧ Screen.pixel fb q c = true ∧ r ≤ q ∧ q < r + bs.length ∧
        (rowPattern (bs[q - r]?.getD 0#8) x0).getMsbD c = true := by
  induction bs generalizing fb r with
  | nil =>
    simp only [drawRows, List.length_nil, Bool.false_eq_true, false_iff]
    rintro ⟨q, c, _, _, _, h1, h2, _⟩
    omega
  | cons b bs ih =>
    simp only [drawRows, List.length_cons]
    by_cases hr : 31 < r
    · simp only [if_pos hr, Bool.false_eq_true, false_iff]
      rintro ⟨q, c, _, _, _, h1, _⟩
      omega
    · simp only [if_neg hr, Bool.or_eq_true, decide_eq_true_eq, ih, row_ne_zero]
      constructor
      · rintro (⟨c, hc, hb⟩ | ⟨q, c, hq, hc, hp, h1, h2, hb⟩)
        · simp only [BitVec.getMsbD_and, Bool.and_eq_true] at hb
          exact ⟨r, c, by omega, hc, hb.1, le_refl r, by omega, by simpa using hb.2⟩
        · refine ⟨q, c, hq, hc, ?_, by omega, by omega, ?_⟩
          · rw [Screen.pixel, Screen.row_setRow _ _ _ _ hq, if_neg (by omega)] at hp
            exact hp
          · rw [show q - r = q - (r + 1) + 1 by omega]
            simpa using hb
      · rintro ⟨q, c, hq, hc, hp, h1, h2, hb⟩
        by_cases hqr : q = r
        · subst hqr
          left
          refine ⟨c, hc, ?_⟩
          simp only [BitVec.getMsbD_and, Bool.and_eq_true]
          exact ⟨hp, by simpa using hb⟩
        · right
          refine ⟨q, c, hq, hc, ?_, by omega, by omega, ?_⟩
          · rw [Screen.pixel, Screen.row_setRow _ _ _ _ hq, if_neg hqr]
            exact hp
          · rw [show q - r = q - (r + 1) + 1 by omega] at hb
            simpa using hb

end Sys2Proof.Machine
end

