-- ==== Sys2Proof/Laws/Ops.lean ====
section
/-! SUPPORT. One lemma for each shared operation that says what it does: the stack, the register block, the operand
values, the fault entry (spec/40_control_flow.md R109, R110, spec/42_index_memory.md, spec/60_exceptions.md R176). -/

namespace Sys2Proof.Machine

/-! ### Call stack -/

theorem State.push_full (s : State) (w : Word) (h : s.sp.val = 16) : s.push w = none := by
  simp [State.push, h]

theorem State.push_room (s : State) (w : Word) (h : s.sp.val < 16) :
    s.push w = some (s.setStack (s.stack.set s.sp.val w h) ⟨s.sp.val + 1, Nat.succ_lt_succ h⟩) := by
  simp [State.push, h]

theorem State.push_eq_none (s : State) (w : Word) : s.push w = none ↔ s.sp.val = 16 := by
  have := s.sp.isLt
  by_cases h : s.sp.val < 16
  · simp [State.push_room s w h]; omega
  · simp [State.push, h]; omega

/-- What a push does when there is room: the word in the next slot, the count one more, the slots below kept. -/
theorem State.push_some (s t : State) (w : Word) (h : s.push w = some t) :
    s.sp.val < 16 ∧ t.sp.val = s.sp.val + 1 ∧ t.stack[s.sp.val]? = some w ∧
      (∀ j, j ≠ s.sp.val → t.stack[j]? = s.stack[j]?) ∧ t = s.setStack t.stack t.sp := by
  by_cases hr : s.sp.val < 16
  · rw [State.push_room s w hr] at h
    obtain rfl := Option.some.inj h
    refine ⟨hr, rfl, by simp, ?_, rfl⟩
    intro j hj
    simp [hj.symm]
  · simp [State.push, hr] at h

@[simp] theorem spPred_val (sp : Fin 17) : (spPred sp).val = sp.val - 1 := rfl

theorem State.pop_empty (s : State) (h : s.sp.val = 0) : s.pop = none := by
  simp [State.pop, h]

theorem State.pop_used (s : State) (h : s.sp.val ≠ 0) :
    s.pop = some (s.stack[s.sp.val - 1]?.getD 0#16, s.setStack s.stack (spPred s.sp)) := by
  simp [State.pop, h]

/-- A pop after a push gives the word pushed and the count before. -/
theorem State.pop_push (s t : State) (w : Word) (h : s.push w = some t) :
    t.pop = some (w, t.setStack t.stack s.sp) := by
  obtain ⟨_, hsp, hw, _, _⟩ := State.push_some s t w h
  rw [State.pop_used t (by omega)]
  have e : spPred t.sp = s.sp := Fin.ext (by simp [hsp])
  simp [hsp, hw, e]

/-! ### Register block (R144, R145) -/

@[simp] theorem State.length_regBlock (s : State) (x : Nibble) : (s.regBlock x).length = x.toNat + 1 := by
  have := x.isLt
  simp [State.regBlock]; omega

theorem State.getElem?_regBlock (s : State) (x r : Nibble) (h : r.toNat ≤ x.toNat) :
    (s.regBlock x)[r.toNat]? = some (s.getV r) := by
  have h1 : r.toNat < x.toNat + 1 := by omega
  have h2 : r.toNat < 16 := r.isLt
  simp [State.regBlock, State.getV, h1, h2]

theorem loadRegs_getElem? (bs : List Byte) (v : Vector Byte 16) (k j : Nat) (hj : j < 16) :
    (loadRegs v k bs)[j]? = if k ≤ j ∧ j < k + bs.length then bs[j - k]? else v[j]? := by
  induction bs generalizing v k with
  | nil => simp [loadRegs]
  | cons b bs ih =>
    simp only [loadRegs, ih, List.length_cons]
    by_cases hkj : k = j
    · subst hkj
      simp [hj]
    · by_cases hin : k ≤ j ∧ j < k + (bs.length + 1)
      · rw [if_pos (by omega), if_pos hin, show j - k = (j - (k + 1)) + 1 by omega]
        simp
      · rw [if_neg (by omega), if_neg hin]
        simp [hkj]

/-- The register `r` after the block `bs` is loaded from register 0 on. -/
theorem getV_loadRegs (s : State) (bs : List Byte) (r : Nibble) :
    (s.setRegs (loadRegs s.v 0 bs)).getV r = (bs[r.toNat]?).getD (s.getV r) := by
  have h : r.toNat < 16 := r.isLt
  rw [State.getV_eq_getElem?, State.setRegs_v, loadRegs_getElem? bs s.v 0 r.toNat h]
  by_cases hr : r.toNat < bs.length
  · simp [hr]
  · simp [hr, State.getV, h]

/-! ### Operand values -/

@[simp] theorem toNat_zextAddr (nnn : Addr) : (zextAddr nnn).toNat = nnn.toNat := by
  have h : nnn.toNat < 4096 := nnn.isLt
  simp only [zextAddr, BitVec.toNat_setWidth]; omega

@[simp] theorem toNat_zextByte (b : Byte) : (zextByte b).toNat = b.toNat := by
  have h : b.toNat < 256 := b.isLt
  simp only [zextByte, BitVec.toNat_setWidth]; omega

@[simp] theorem toNat_zextKey (k : Nibble) : (zextKey k).toNat = k.toNat := by
  have h : k.toNat < 16 := k.isLt
  simp only [zextKey, BitVec.toNat_setWidth]; omega

@[simp] theorem toNat_keyOf (b : Byte) : (keyOf b).toNat = b.toNat % 16 := by
  simp [keyOf]

@[simp] theorem toNat_offsetTarget (nnn : Addr) (b : Byte) : (offsetTarget nnn b).toNat = nnn.toNat + b.toNat := by
  have h : nnn.toNat < 4096 := nnn.isLt
  have h' : b.toNat < 256 := b.isLt
  simp only [offsetTarget, BitVec.toNat_add, toNat_zextAddr, toNat_zextByte]; omega

@[simp] theorem toNat_glyphAddr (b : Byte) : (glyphAddr b).toNat = b.toNat * 5 := by
  have h : b.toNat < 256 := b.isLt
  simp only [glyphAddr, BitVec.toNat_mul, toNat_zextByte, BitVec.toNat_ofNat]; omega

@[simp] theorem length_bcdDigits (b : Byte) : (bcdDigits b).length = 3 := rfl

/-- The digits are digits, and they spell the byte (R143). -/
theorem bcdDigits_spell (b : Byte) :
    ∃ h t o : Byte, bcdDigits b = [h, t, o] ∧ h.toNat ≤ 2 ∧ t.toNat ≤ 9 ∧ o.toNat ≤ 9 ∧
      100 * h.toNat + 10 * t.toNat + o.toNat = b.toNat := by
  have hb : b.toNat < 256 := b.isLt
  refine ⟨_, _, _, rfl, ?_⟩
  simp only [BitVec.toNat_ofNat]
  omega

/-! ### Taking a fault (R176) -/

/-- Fault entry writes `STATUS` and nothing else. -/
theorem State.raise_eq (s : State) (f : Fault) : s.raise f = .next (s.setStatus (.faulted f)) := rfl

end Sys2Proof.Machine
end

