-- ==== Sys2Proof/Laws/Cycle.lean ====
section
/-! SUPPORT. What the cycle, the events and each instruction that can fault do, said once (spec/40_control_flow.md
R100, spec/60_exceptions.md R175, R183, R185). -/

namespace Sys2Proof.Machine

/-! ### The step and the schedule -/

theorem step_listed (s : State) (e : Event) (rest : List Event) (h : s.env.schedule = e :: rest) :
    step s = deliver e (s.setEnv { s.env with schedule := rest }) := by
  simp [step, nextEvent, h]

theorem step_unlisted (s : State) (h : s.env.schedule = []) : step s = stepUnlisted s := by
  simp [step, nextEvent, h]

theorem stepUnlisted_faulted (s : State) (f : Fault) (h : s.status = .faulted f) : stepUnlisted s = .fault f := by
  simp [stepUnlisted, h]

theorem stepUnlisted_live (s : State) (h : NotFaulted s) : stepUnlisted s = stepEvent s := by
  unfold stepUnlisted
  split
  · next f hf => exact absurd hf (h f)
  · rfl
  · rfl

/-! ### The cycle (R100) -/

theorem stepEvent_faulted (s : State) (f : Fault) (h : s.status = .faulted f) : stepEvent s = .next s := by
  simp [stepEvent, h]

theorem stepEvent_awaitKey (s : State) (x : Nibble) (h : s.status = .awaitKey x) : stepEvent s = .next s := by
  simp [stepEvent, h]

/-- The fetch succeeds: the word at `PC` is dispatched with `PC` advanced. -/
theorem stepEvent_fetched (s : State) (h : s.status = .running) (hpc : s.pc.toNat ≤ 0xFFE) :
    stepEvent s = dispatchWord (wordAtPc s) s.advance := by
  have hf : fetch s = .ok (wordAtPc s) := (memRead2_ok _ _ _).2 ⟨hpc, rfl⟩
  simp [stepEvent, h, hf]

/-- The fetch fails: `PC` stays. -/
theorem stepEvent_fetch_fault (s : State) (h : s.status = .running) (hpc : 0xFFE < s.pc.toNat) :
    stepEvent s = s.raise (.outOfRange (max s.pc.toNat 0x1000)) := by
  have hf : fetch s = .error (.outOfRange (max s.pc.toNat 0x1000)) := (memRead2_error _ _ _).2 ⟨hpc, rfl⟩
  simp [stepEvent, h, hf]

theorem dispatchWord_ok (w : Word) (i : Instr) (s : State) (h : decodeWord w = .ok i) :
    dispatchWord w s = exec i s := by
  simp [dispatchWord, h]

theorem dispatchWord_error (w : Word) (r : Reject) (s : State) (h : decodeWord w = .error r) :
    dispatchWord w s = s.raise (.decodeFailure w) := by
  simp [dispatchWord, h]

/-- Everything a `Step` can do. -/
theorem stepEvent_cases (s : State) :
    (s.status ≠ .running ∧ stepEvent s = .next s) ∨
    (s.status = .running ∧ 0xFFE < s.pc.toNat ∧ stepEvent s = s.raise (.outOfRange (max s.pc.toNat 0x1000))) ∨
    (s.status = .running ∧ s.pc.toNat ≤ 0xFFE ∧ (∃ r, decodeWord (wordAtPc s) = .error r) ∧
      stepEvent s = s.advance.raise (.decodeFailure (wordAtPc s))) ∨
    (s.status = .running ∧ s.pc.toNat ≤ 0xFFE ∧
      ∃ i, decodeWord (wordAtPc s) = .ok i ∧ stepEvent s = exec i s.advance) := by
  cases hs : s.status with
  | faulted f => exact .inl ⟨nofun, stepEvent_faulted s f hs⟩
  | awaitKey x => exact .inl ⟨nofun, stepEvent_awaitKey s x hs⟩
  | running =>
    right
    by_cases hpc : s.pc.toNat ≤ 0xFFE
    · have hd := stepEvent_fetched s hs hpc
      cases hw : decodeWord (wordAtPc s) with
      | error r => exact .inr (.inl ⟨rfl, hpc, ⟨r, rfl⟩, hd.trans (dispatchWord_error _ r _ hw)⟩)
      | ok i => exact .inr (.inr ⟨rfl, hpc, i, rfl, hd.trans (dispatchWord_ok _ i _ hw)⟩)
    · exact .inl ⟨rfl, by omega, stepEvent_fetch_fault s hs (by omega)⟩

/-- While memory keeps its place the advance does not wrap (R26). -/
theorem toNat_advance (s : State) (h : s.pc.toNat ≤ 0xFFFD) : (s.pc + 2#16).toNat = s.pc.toNat + 2 := by
  simp only [BitVec.toNat_add, BitVec.toNat_ofNat]; omega

/-! ### The instructions that can fault (R175) -/

theorem execRet_cases (s : State) :
    (s.sp.val = 0 ∧ execRet s = s.raise .stackUnderflow) ∨
    (s.sp.val ≠ 0 ∧ execRet s =
      .next ((s.setStack s.stack (spPred s.sp)).setPc (s.stack[s.sp.val - 1]?.getD 0#16))) := by
  by_cases h : s.sp.val = 0
  · exact .inl ⟨h, by simp [execRet, State.pop_empty s h]⟩
  · exact .inr ⟨h, by simp [execRet, State.pop_used s h]⟩

theorem execCall_cases (nnn : Addr) (s : State) :
    (s.sp.val = 16 ∧ execCall nnn s = s.raise .stackOverflow) ∨
    (s.sp.val < 16 ∧ ∃ t, s.push s.pc = some t ∧ execCall nnn s = .next (t.setPc (zextAddr nnn))) := by
  have := s.sp.isLt
  by_cases h : s.sp.val < 16
  · exact .inr ⟨h, _, State.push_room s s.pc h, by simp [execCall, State.push_room s s.pc h]⟩
  · have h16 : s.sp.val = 16 := by omega
    exact .inl ⟨h16, by simp [execCall, State.push_full s s.pc h16]⟩

theorem execAddI_cases (x : Nibble) (s : State) :
    (s.i.toNat + (s.getV x).toNat ≤ 0xFFFF ∧ execAddI x s = .next (s.setI (s.i + zextByte (s.getV x)))) ∨
    (0xFFFF < s.i.toNat + (s.getV x).toNat ∧
      execAddI x s = s.raise (.outOfRange (s.i.toNat + (s.getV x).toNat))) := by
  unfold execAddI
  split
  · next h => exact .inl ⟨h, rfl⟩
  · next h => exact .inr ⟨by omega, rfl⟩

theorem execLdB_cases (x : Nibble) (s : State) :
    (InRange s.i.toNat 3 ∧ execLdB x s = .next (s.setMem (s.mem.writeBytes s.i.toNat (bcdDigits (s.getV x))))) ∨
    (¬ InRange s.i.toNat 3 ∧ execLdB x s = s.raise (.outOfRange (max s.i.toNat 0x1000))) := by
  unfold execLdB
  split
  · next f h => rw [writeChecked_error] at h; exact .inr ⟨h.1, by rw [h.2]⟩
  · next m h => rw [writeChecked_ok] at h; exact .inl ⟨h.1, by rw [h.2]⟩

theorem execStRegs_cases (x : Nibble) (s : State) :
    (InRange s.i.toNat (x.toNat + 1) ∧
      execStRegs x s = .next (s.setMem (s.mem.writeBytes s.i.toNat (s.regBlock x)))) ∨
    (¬ InRange s.i.toNat (x.toNat + 1) ∧ execStRegs x s = s.raise (.outOfRange (max s.i.toNat 0x1000))) := by
  unfold execStRegs
  split
  · next f h =>
    rw [writeChecked_error, State.length_regBlock] at h; exact .inr ⟨h.1, by rw [h.2]⟩
  · next m h => rw [writeChecked_ok, State.length_regBlock] at h; exact .inl ⟨h.1, by rw [h.2]⟩

theorem execLdRegs_cases (x : Nibble) (s : State) :
    (InRange s.i.toNat (x.toNat + 1) ∧
      execLdRegs x s = .next (s.setRegs (loadRegs s.v 0 (s.mem.readBytes s.i.toNat (x.toNat + 1))))) ∨
    (¬ InRange s.i.toNat (x.toNat + 1) ∧ execLdRegs x s = s.raise (.outOfRange (max s.i.toNat 0x1000))) := by
  unfold execLdRegs
  split
  · next f h => rw [readChecked_error] at h; exact .inr ⟨h.1, by rw [h.2]⟩
  · next m h => rw [readChecked_ok] at h; exact .inl ⟨h.1, by rw [h.2]⟩

/-- The screen and the collision of a `DRW` that does not fault. -/
def drawnBy (x y n : Nibble) (s : State) : Screen × Bool :=
  drawRows s.fb (s.getV x) (s.getV y).toNat (s.mem.readBytes s.i.toNat n.toNat)

theorem execDrw_cases (x y n : Nibble) (s : State) :
    (InRange s.i.toNat n.toNat ∧
      execDrw x y n s = .next ((s.setFb (drawnBy x y n s).1).setFlag (drawnBy x y n s).2)) ∨
    (¬ InRange s.i.toNat n.toNat ∧ execDrw x y n s = s.raise (.outOfRange (max s.i.toNat 0x1000))) := by
  unfold execDrw drawnBy
  split
  · next f h => rw [readChecked_error] at h; exact .inr ⟨h.1, by rw [h.2]⟩
  · next m h => rw [readChecked_ok] at h; exact .inl ⟨h.1, by rw [h.2]⟩

/-! ### The other events -/

theorem tick_running (s : State) (h : s.status = .running) :
    tick s = (s.setDt (countDown s.dt)).setSt (countDown s.st) := by
  simp [tick, h]

theorem tick_stopped (s : State) (h : s.status ≠ .running) : tick s = s := by
  unfold tick; split <;> simp_all

/-- A count down is a saturating subtraction of one. -/
theorem toNat_countDown (b : Byte) : (countDown b).toNat = b.toNat - 1 := by
  have hb : b.toNat < 256 := b.isLt
  unfold countDown
  split
  · next h => subst h; rfl
  · next h =>
    have : b.toNat ≠ 0 := fun e => h (BitVec.eq_of_toNat_eq (by simpa using e))
    simp only [BitVec.toNat_sub, BitVec.toNat_ofNat]; omega

theorem keyPress_waiting (k x : Nibble) (s : State) (h : s.status = .awaitKey x) :
    keyPress k s = (s.setV x (zextKey k)).setStatus .running := by
  simp [keyPress, h]

theorem keyPress_other (k : Nibble) (s : State) (h : ∀ x, s.status ≠ .awaitKey x) : keyPress k s = s := by
  unfold keyPress; split <;> simp_all

end Sys2Proof.Machine
end

