-- ==== Sys2Proof/Laws/PerInstr.lean ====
section
/-! SUPPORT. Statements about every instruction as syntax, one lemma per constructor. -/

namespace Sys2Proof.Laws

/-- An operand of a bit vector type fits the field of its width. -/
theorem operand_fits (width : Nat) (b : BitVec width) : fitsField width b.toNat = true := by
  simp [fitsField, b.isLt]

end Sys2Proof.Laws

namespace Sys2Proof.Laws.EncodingRow

/-- The instruction is well formed, and its encoding selects the row of the opcode map that builds it (R75). -/
def Statement (i : Instr) : Prop :=
  i.wellFormed = true ∧ ∃ r ∈ opcodeTable, r.selects (encode i) = true ∧ r.build (encode i) = i

theorem cls : Statement .cls :=
  ⟨rfl,
    opcodeTable[0], List.getElem_mem _, by decide,
    by simp [opcodeTable, opcodeRowsA, opcodeRowsB, opcodeRowsC, opcodeRowsD, encode]⟩

theorem ret : Statement .ret :=
  ⟨rfl,
    opcodeTable[1], List.getElem_mem _, by decide,
    by simp [opcodeTable, opcodeRowsA, opcodeRowsB, opcodeRowsC, opcodeRowsD, encode]⟩

theorem jp (nnn : Addr) : Statement (.jp nnn) :=
  ⟨by simp [Instr.wellFormed, Instr.operands, operandsFit, operand_fits],
    opcodeTable[2], List.getElem_mem _, decide_eq_true ((encNNN_mask _ _).trans (by decide)),
    by simp [opcodeTable, opcodeRowsA, opcodeRowsB, opcodeRowsC, opcodeRowsD, encode]⟩

theorem call (nnn : Addr) : Statement (.call nnn) :=
  ⟨by simp [Instr.wellFormed, Instr.operands, operandsFit, operand_fits],
    opcodeTable[3], List.getElem_mem _, decide_eq_true ((encNNN_mask _ _).trans (by decide)),
    by simp [opcodeTable, opcodeRowsA, opcodeRowsB, opcodeRowsC, opcodeRowsD, encode]⟩

theorem seImm (x : Nibble) (kk : Byte) : Statement (.seImm x kk) :=
  ⟨by simp [Instr.wellFormed, Instr.operands, operandsFit, operand_fits],
    opcodeTable[4], List.getElem_mem _, decide_eq_true ((encXKK_mask _ _ _).trans (by decide)),
    by simp [opcodeTable, opcodeRowsA, opcodeRowsB, opcodeRowsC, opcodeRowsD, encode]⟩

theorem sneImm (x : Nibble) (kk : Byte) : Statement (.sneImm x kk) :=
  ⟨by simp [Instr.wellFormed, Instr.operands, operandsFit, operand_fits],
    opcodeTable[5], List.getElem_mem _, decide_eq_true ((encXKK_mask _ _ _).trans (by decide)),
    by simp [opcodeTable, opcodeRowsA, opcodeRowsB, opcodeRowsC, opcodeRowsD, encode]⟩

theorem seReg (x y : Nibble) : Statement (.seReg x y) :=
  ⟨by simp [Instr.wellFormed, Instr.operands, operandsFit, operand_fits],
    opcodeTable[6], List.getElem_mem _, decide_eq_true ((encXYN_mask _ _ _ _).trans (by decide)),
    by simp [opcodeTable, opcodeRowsA, opcodeRowsB, opcodeRowsC, opcodeRowsD, encode]⟩

theorem ldImm (x : Nibble) (kk : Byte) : Statement (.ldImm x kk) :=
  ⟨by simp [Instr.wellFormed, Instr.operands, operandsFit, operand_fits],
    opcodeTable[7], List.getElem_mem _, decide_eq_true ((encXKK_mask _ _ _).trans (by decide)),
    by simp [opcodeTable, opcodeRowsA, opcodeRowsB, opcodeRowsC, opcodeRowsD, encode]⟩

theorem addImm (x : Nibble) (kk : Byte) : Statement (.addImm x kk) :=
  ⟨by simp [Instr.wellFormed, Instr.operands, operandsFit, operand_fits],
    opcodeTable[8], List.getElem_mem _, decide_eq_true ((encXKK_mask _ _ _).trans (by decide)),
    by simp [opcodeTable, opcodeRowsA, opcodeRowsB, opcodeRowsC, opcodeRowsD, encode]⟩

theorem mov (x y : Nibble) : Statement (.mov x y) :=
  ⟨by simp [Instr.wellFormed, Instr.operands, operandsFit, operand_fits],
    opcodeTable[9], List.getElem_mem _, decide_eq_true ((encXYN_mask_n _ _ _ _).trans (by decide)),
    by simp [opcodeTable, opcodeRowsA, opcodeRowsB, opcodeRowsC, opcodeRowsD, encode]⟩

theorem or (x y : Nibble) : Statement (.or x y) :=
  ⟨by simp [Instr.wellFormed, Instr.operands, operandsFit, operand_fits],
    opcodeTable[10], List.getElem_mem _, decide_eq_true ((encXYN_mask_n _ _ _ _).trans (by decide)),
    by simp [opcodeTable, opcodeRowsA, opcodeRowsB, opcodeRowsC, opcodeRowsD, encode]⟩

theorem and (x y : Nibble) : Statement (.and x y) :=
  ⟨by simp [Instr.wellFormed, Instr.operands, operandsFit, operand_fits],
    opcodeTable[11], List.getElem_mem _, decide_eq_true ((encXYN_mask_n _ _ _ _).trans (by decide)),
    by simp [opcodeTable, opcodeRowsA, opcodeRowsB, opcodeRowsC, opcodeRowsD, encode]⟩

theorem xor (x y : Nibble) : Statement (.xor x y) :=
  ⟨by simp [Instr.wellFormed, Instr.operands, operandsFit, operand_fits],
    opcodeTable[12], List.getElem_mem _, decide_eq_true ((encXYN_mask_n _ _ _ _).trans (by decide)),
    by simp [opcodeTable, opcodeRowsA, opcodeRowsB, opcodeRowsC, opcodeRowsD, encode]⟩

theorem addReg (x y : Nibble) : Statement (.addReg x y) :=
  ⟨by simp [Instr.wellFormed, Instr.operands, operandsFit, operand_fits],
    opcodeTable[13], List.getElem_mem _, decide_eq_true ((encXYN_mask_n _ _ _ _).trans (by decide)),
    by simp [opcodeTable, opcodeRowsA, opcodeRowsB, opcodeRowsC, opcodeRowsD, encode]⟩

theorem sub (x y : Nibble) : Statement (.sub x y) :=
  ⟨by simp [Instr.wellFormed, Instr.operands, operandsFit, operand_fits],
    opcodeTable[14], List.getElem_mem _, decide_eq_true ((encXYN_mask_n _ _ _ _).trans (by decide)),
    by simp [opcodeTable, opcodeRowsA, opcodeRowsB, opcodeRowsC, opcodeRowsD, encode]⟩

theorem shr (x y : Nibble) : Statement (.shr x y) :=
  ⟨by simp [Instr.wellFormed, Instr.operands, operandsFit, operand_fits],
    opcodeTable[15], List.getElem_mem _, decide_eq_true ((encXYN_mask_n _ _ _ _).trans (by decide)),
    by simp [opcodeTable, opcodeRowsA, opcodeRowsB, opcodeRowsC, opcodeRowsD, encode]⟩

theorem subn (x y : Nibble) : Statement (.subn x y) :=
  ⟨by simp [Instr.wellFormed, Instr.operands, operandsFit, operand_fits],
    opcodeTable[16], List.getElem_mem _, decide_eq_true ((encXYN_mask_n _ _ _ _).trans (by decide)),
    by simp [opcodeTable, opcodeRowsA, opcodeRowsB, opcodeRowsC, opcodeRowsD, encode]⟩

theorem shl (x y : Nibble) : Statement (.shl x y) :=
  ⟨by simp [Instr.wellFormed, Instr.operands, operandsFit, operand_fits],
    opcodeTable[17], List.getElem_mem _, decide_eq_true ((encXYN_mask_n _ _ _ _).trans (by decide)),
    by simp [opcodeTable, opcodeRowsA, opcodeRowsB, opcodeRowsC, opcodeRowsD, encode]⟩

theorem sneReg (x y : Nibble) : Statement (.sneReg x y) :=
  ⟨by simp [Instr.wellFormed, Instr.operands, operandsFit, operand_fits],
    opcodeTable[18], List.getElem_mem _, decide_eq_true ((encXYN_mask _ _ _ _).trans (by decide)),
    by simp [opcodeTable, opcodeRowsA, opcodeRowsB, opcodeRowsC, opcodeRowsD, encode]⟩

theorem ldI (nnn : Addr) : Statement (.ldI nnn) :=
  ⟨by simp [Instr.wellFormed, Instr.operands, operandsFit, operand_fits],
    opcodeTable[19], List.getElem_mem _, decide_eq_true ((encNNN_mask _ _).trans (by decide)),
    by simp [opcodeTable, opcodeRowsA, opcodeRowsB, opcodeRowsC, opcodeRowsD, encode]⟩

theorem jpV0 (nnn : Addr) : Statement (.jpV0 nnn) :=
  ⟨by simp [Instr.wellFormed, Instr.operands, operandsFit, operand_fits],
    opcodeTable[20], List.getElem_mem _, decide_eq_true ((encNNN_mask _ _).trans (by decide)),
    by simp [opcodeTable, opcodeRowsA, opcodeRowsB, opcodeRowsC, opcodeRowsD, encode]⟩

theorem rnd (x : Nibble) (kk : Byte) : Statement (.rnd x kk) :=
  ⟨by simp [Instr.wellFormed, Instr.operands, operandsFit, operand_fits],
    opcodeTable[21], List.getElem_mem _, decide_eq_true ((encXKK_mask _ _ _).trans (by decide)),
    by simp [opcodeTable, opcodeRowsA, opcodeRowsB, opcodeRowsC, opcodeRowsD, encode]⟩

theorem drw (x y n : Nibble) : Statement (.drw x y n) :=
  ⟨by simp [Instr.wellFormed, Instr.operands, operandsFit, operand_fits],
    opcodeTable[22], List.getElem_mem _, decide_eq_true ((encXYN_mask _ _ _ _).trans (by decide)),
    by simp [opcodeTable, opcodeRowsA, opcodeRowsB, opcodeRowsC, opcodeRowsD, encode]⟩

theorem skp (x : Nibble) : Statement (.skp x) :=
  ⟨by simp [Instr.wellFormed, Instr.operands, operandsFit, operand_fits],
    opcodeTable[23], List.getElem_mem _, decide_eq_true ((encXKK_mask_kk _ _ _).trans (by decide)),
    by simp [opcodeTable, opcodeRowsA, opcodeRowsB, opcodeRowsC, opcodeRowsD, encode]⟩

theorem sknp (x : Nibble) : Statement (.sknp x) :=
  ⟨by simp [Instr.wellFormed, Instr.operands, operandsFit, operand_fits],
    opcodeTable[24], List.getElem_mem _, decide_eq_true ((encXKK_mask_kk _ _ _).trans (by decide)),
    by simp [opcodeTable, opcodeRowsA, opcodeRowsB, opcodeRowsC, opcodeRowsD, encode]⟩

theorem ldVxDt (x : Nibble) : Statement (.ldVxDt x) :=
  ⟨by simp [Instr.wellFormed, Instr.operands, operandsFit, operand_fits],
    opcodeTable[25], List.getElem_mem _, decide_eq_true ((encXKK_mask_kk _ _ _).trans (by decide)),
    by simp [opcodeTable, opcodeRowsA, opcodeRowsB, opcodeRowsC, opcodeRowsD, encode]⟩

theorem ldVxK (x : Nibble) : Statement (.ldVxK x) :=
  ⟨by simp [Instr.wellFormed, Instr.operands, operandsFit, operand_fits],
    opcodeTable[26], List.getElem_mem _, decide_eq_true ((encXKK_mask_kk _ _ _).trans (by decide)),
    by simp [opcodeTable, opcodeRowsA, opcodeRowsB, opcodeRowsC, opcodeRowsD, encode]⟩

theorem ldDtVx (x : Nibble) : Statement (.ldDtVx x) :=
  ⟨by simp [Instr.wellFormed, Instr.operands, operandsFit, operand_fits],
    opcodeTable[27], List.getElem_mem _, decide_eq_true ((encXKK_mask_kk _ _ _).trans (by decide)),
    by simp [opcodeTable, opcodeRowsA, opcodeRowsB, opcodeRowsC, opcodeRowsD, encode]⟩

theorem ldStVx (x : Nibble) : Statement (.ldStVx x) :=
  ⟨by simp [Instr.wellFormed, Instr.operands, operandsFit, operand_fits],
    opcodeTable[28], List.getElem_mem _, decide_eq_true ((encXKK_mask_kk _ _ _).trans (by decide)),
    by simp [opcodeTable, opcodeRowsA, opcodeRowsB, opcodeRowsC, opcodeRowsD, encode]⟩

theorem addI (x : Nibble) : Statement (.addI x) :=
  ⟨by simp [Instr.wellFormed, Instr.operands, operandsFit, operand_fits],
    opcodeTable[29], List.getElem_mem _, decide_eq_true ((encXKK_mask_kk _ _ _).trans (by decide)),
    by simp [opcodeTable, opcodeRowsA, opcodeRowsB, opcodeRowsC, opcodeRowsD, encode]⟩

theorem ldF (x : Nibble) : Statement (.ldF x) :=
  ⟨by simp [Instr.wellFormed, Instr.operands, operandsFit, operand_fits],
    opcodeTable[30], List.getElem_mem _, decide_eq_true ((encXKK_mask_kk _ _ _).trans (by decide)),
    by simp [opcodeTable, opcodeRowsA, opcodeRowsB, opcodeRowsC, opcodeRowsD, encode]⟩

theorem ldB (x : Nibble) : Statement (.ldB x) :=
  ⟨by simp [Instr.wellFormed, Instr.operands, operandsFit, operand_fits],
    opcodeTable[31], List.getElem_mem _, decide_eq_true ((encXKK_mask_kk _ _ _).trans (by decide)),
    by simp [opcodeTable, opcodeRowsA, opcodeRowsB, opcodeRowsC, opcodeRowsD, encode]⟩

theorem stRegs (x : Nibble) : Statement (.stRegs x) :=
  ⟨by simp [Instr.wellFormed, Instr.operands, operandsFit, operand_fits],
    opcodeTable[32], List.getElem_mem _, decide_eq_true ((encXKK_mask_kk _ _ _).trans (by decide)),
    by simp [opcodeTable, opcodeRowsA, opcodeRowsB, opcodeRowsC, opcodeRowsD, encode]⟩

theorem ldRegs (x : Nibble) : Statement (.ldRegs x) :=
  ⟨by simp [Instr.wellFormed, Instr.operands, operandsFit, operand_fits],
    opcodeTable[33], List.getElem_mem _, decide_eq_true ((encXKK_mask_kk _ _ _).trans (by decide)),
    by simp [opcodeTable, opcodeRowsA, opcodeRowsB, opcodeRowsC, opcodeRowsD, encode]⟩

end Sys2Proof.Laws.EncodingRow
end

