-- ==== Sys2Proof/Tests/Slice0.lean ====
section
/-! SUPPORT. The model's own tests (expected values from spec/95_test_vectors.md or worked out by hand from the rule
named), the smoke test of WellFormed, and for every obligation with hypotheses a witness that meets them. -/

namespace Sys2Proof.Tests

open Sys2Proof Sys2Proof.Machine

/-! ### WellFormed: an ill-formed operand for each check (R73, R85) -/

theorem test_fits_nibble : fitsField 4 15 = true ∧ fitsField 4 16 = false := by decide
theorem test_fits_byte : fitsField 8 255 = true ∧ fitsField 8 256 = false := by decide
theorem test_fits_address : fitsField 12 0xFFF = true ∧ fitsField 12 0x1000 = false := by decide
theorem test_operands_first_too_wide : operandsFit [(4, 16), (8, 0)] = false := by decide
theorem test_operands_second_too_wide : operandsFit [(4, 15), (8, 256)] = false := by decide
theorem test_operands_third_too_wide : operandsFit [(4, 15), (4, 15), (4, 16)] = false := by decide
theorem test_wellFormed_widest : (Instr.drw 0xF#4 0xF#4 0xF#4).wellFormed = true := by decide

/-! ### Decode: each row's word written out from its encoding (R72, R75; vectors of section 2.1 where there is one) -/

theorem test_decode_cls : decodeWord 0b0000000011100000#16 = .ok (.cls) := rfl
theorem test_decode_ret : decodeWord 0b0000000011101110#16 = .ok (.ret) := rfl
theorem test_decode_jp : decodeWord 0b0001101010111100#16 = .ok (.jp 0xABC#12) := rfl
theorem test_decode_call : decodeWord 0b0010001100000000#16 = .ok (.call 0x300#12) := rfl
theorem test_decode_seImm : decodeWord 0b0011101001010101#16 = .ok (.seImm 0xA#4 0x55#8) := rfl
theorem test_decode_sneImm : decodeWord 0b0100101001010101#16 = .ok (.sneImm 0xA#4 0x55#8) := rfl
theorem test_decode_seReg : decodeWord 0b0101000100100000#16 = .ok (.seReg 0x1#4 0x2#4) := rfl
theorem test_decode_ldImm : decodeWord 0b0110000110101011#16 = .ok (.ldImm 0x1#4 0xAB#8) := rfl
theorem test_decode_addImm : decodeWord 0b0111000111111111#16 = .ok (.addImm 0x1#4 0xFF#8) := rfl
theorem test_decode_mov : decodeWord 0b1000000100100000#16 = .ok (.mov 0x1#4 0x2#4) := rfl
theorem test_decode_or : decodeWord 0b1000000100100001#16 = .ok (.or 0x1#4 0x2#4) := rfl
theorem test_decode_and : decodeWord 0b1000000100100010#16 = .ok (.and 0x1#4 0x2#4) := rfl
theorem test_decode_xor : decodeWord 0b1000000100100011#16 = .ok (.xor 0x1#4 0x2#4) := rfl
theorem test_decode_addReg : decodeWord 0b1000101010110100#16 = .ok (.addReg 0xA#4 0xB#4) := rfl
theorem test_decode_sub : decodeWord 0b1000000100100101#16 = .ok (.sub 0x1#4 0x2#4) := rfl
theorem test_decode_shr : decodeWord 0b1000000100100110#16 = .ok (.shr 0x1#4 0x2#4) := rfl
theorem test_decode_subn : decodeWord 0b1000000100100111#16 = .ok (.subn 0x1#4 0x2#4) := rfl
theorem test_decode_shl : decodeWord 0b1000000011111110#16 = .ok (.shl 0x0#4 0xF#4) := rfl
theorem test_decode_sneReg : decodeWord 0b1001000100100000#16 = .ok (.sneReg 0x1#4 0x2#4) := rfl
theorem test_decode_ldI : decodeWord 0b1010001100000000#16 = .ok (.ldI 0x300#12) := rfl
theorem test_decode_jpV0 : decodeWord 0b1011111111111111#16 = .ok (.jpV0 0xFFF#12) := rfl
theorem test_decode_rnd : decodeWord 0b1100000100001111#16 = .ok (.rnd 0x1#4 0x0F#8) := rfl
theorem test_decode_drw : decodeWord 0b1101000100100011#16 = .ok (.drw 0x1#4 0x2#4 0x3#4) := rfl
theorem test_decode_skp : decodeWord 0b1110011010011110#16 = .ok (.skp 0x6#4) := rfl
theorem test_decode_sknp : decodeWord 0b1110011010100001#16 = .ok (.sknp 0x6#4) := rfl
theorem test_decode_ldVxDt : decodeWord 0b1111010100000111#16 = .ok (.ldVxDt 0x5#4) := rfl
theorem test_decode_ldVxK : decodeWord 0b1111001000001010#16 = .ok (.ldVxK 0x2#4) := rfl
theorem test_decode_ldDtVx : decodeWord 0b1111010100010101#16 = .ok (.ldDtVx 0x5#4) := rfl
theorem test_decode_ldStVx : decodeWord 0b1111010100011000#16 = .ok (.ldStVx 0x5#4) := rfl
theorem test_decode_addI : decodeWord 0b1111001000011110#16 = .ok (.addI 0x2#4) := rfl
theorem test_decode_ldF : decodeWord 0b1111101000101001#16 = .ok (.ldF 0xA#4) := rfl
theorem test_decode_ldB : decodeWord 0b1111000000110011#16 = .ok (.ldB 0x0#4) := rfl
theorem test_decode_stRegs : decodeWord 0b1111000101010101#16 = .ok (.stRegs 0x1#4) := rfl
theorem test_decode_ldRegs : decodeWord 0b1111111101100101#16 = .ok (.ldRegs 0xF#4) := rfl

/-- Families 5 and 9 ignore the low nibble (V-DEC-7, V-DEC-8). -/
theorem test_decode_low_nibble :
    decodeWord 0x5121#16 = .ok (.seReg 0x1#4 0x2#4) ∧ decodeWord 0x912F#16 = .ok (.sneReg 0x1#4 0x2#4) :=
  ⟨rfl, rfl⟩

/-- Whether the word selects no row. -/
def isIllegal (w : Word) : Bool :=
  match decodeWord w with
  | .ok _ => false
  | .error _ => true

/-- The illegal words of section 2.1, family by family, beside legal neighbours. -/
theorem test_illegal_family0 :
    ([0x0000#16, 0x0001#16, 0x00E1#16, 0x00EF#16, 0x00FE#16, 0x00FF#16, 0x00C1#16, 0x01E0#16, 0x0EE0#16, 0x0123#16,
      0x0FFF#16] : List Word).all isIllegal = true := by decide
theorem test_illegal_family8 :
    ([0x8008#16, 0x8129#16, 0x812A#16, 0x812B#16, 0x812C#16, 0x812D#16, 0x812F#16] : List Word).all
      isIllegal = true := by decide
theorem test_illegal_familyE :
    ([0xE000#16, 0xE09F#16, 0xE19D#16, 0xE0A0#16, 0xE1A2#16, 0xEF9F#16] : List Word).all isIllegal = true := by decide
theorem test_illegal_familyF :
    ([0xF000#16, 0xF001#16, 0xF00B#16, 0xF016#16, 0xF01F#16, 0xF030#16, 0xF075#16, 0xF085#16, 0xF0FF#16,
      0xF166#16] : List Word).all isIllegal = true := by decide
theorem test_legal_neighbours :
    ([0xF165#16, 0xE09E#16, 0x8FFE#16, 0x5FFF#16] : List Word).all (fun w => !isIllegal w) = true := by decide

/-- Fewer than two bytes are no instruction (R70). -/
theorem test_truncated : decodeBytes [0x00#8] = .error .truncated := rfl

/-- The host's words: the first byte of the table word is the high byte. -/
theorem test_decodeTableWord :
    decodeTableWord 16 0xD123 = some (.drw 0x1#4 0x2#4 0x3#4) ∧ decodeTableWord 16 0x8008 = none := by decide

/-! ### One step, or one instruction, on a small state -/

/-- The outcome is a next state that meets the condition. -/
def onNext (o : Out) (p : State → Bool) : Bool :=
  match o with
  | .next s => p s
  | _ => false

/-- One `Step` of the word placed at `PC`. -/
def run1 (w : Nat) (s : State) (p : State → Bool) : Bool := onNext (step (s.withFetchWord 16 w)) p

/-- The reset state with `V1` and `V2` given and `VF = 0x5A`. -/
def two (a b : Byte) : State := ((State.reset.setV 0x1#4 a).setV 0x2#4 b).setV 0xF#4 0x5A#8

/-- `V1`, `V2` and `VF`. -/
def v12f (s : State) : Byte × Byte × Byte := (s.getV 0x1#4, s.getV 0x2#4, s.getV 0xF#4)

/-- The reset state with memory bytes at 0x300, `I` there. -/
def at300 (bs : List Byte) : State := (State.reset.setMem (Memory.writeBytes [] 0x300 bs)).setI 0x300#16

/-- The reset state with every stack slot 0x0202 and `sp` in use. -/
def stacked (sp : Fin 17) : State := State.reset.setStack (Vector.replicate 16 0x0202#16) sp

/-- The framebuffer with one row not blank. -/
def oneRow (r : Nat) (w : BitVec 64) : Screen := Screen.setRow (Vector.replicate 32 0#64) r w

/-- V-CF-1. -/
theorem test_jp : run1 0x1ABC State.reset (fun t => t.pc == 0xABC#16) = true := by decide
/-- V-CF-3. -/
theorem test_jp_odd : run1 0x1201 State.reset (fun t => t.pc == 0x201#16 && t.status == .running) = true := by decide
/-- V-CF-9. -/
theorem test_call_overflow :
    run1 0x2300 (stacked 16)
      (fun t => t.pc == 0x202#16 && t.sp == 16 && t.status == .faulted .stackOverflow) = true := by
  decide
/-- V-CF-12. -/
theorem test_call_sixteenth :
    run1 0x2300 (stacked 15)
      (fun t => t.stack[15]? == some 0x0202#16 && t.sp == 16 && t.status == .running) = true := by
  decide
/-- V-CF-5. -/
theorem test_ret :
    run1 0x00EE ((stacked 1).setPc 0x300#16) (fun t => t.pc == 0x202#16 && t.sp == 0) = true := by
  decide
/-- V-CF-10. -/
theorem test_ret_underflow :
    run1 0x00EE State.reset (fun t => t.pc == 0x202#16 && t.status == .faulted .stackUnderflow) = true := by
  decide
/-- V-CF-6, in `V1`. -/
theorem test_seImm_not : run1 0x3155 (two 0x54#8 0x00#8) (fun t => t.pc == 0x202#16) = true := by decide
/-- V-CF-7, in `V1`. -/
theorem test_sneImm : run1 0x4155 (two 0x54#8 0x00#8) (fun t => t.pc == 0x204#16) = true := by decide
/-- V-CF-7, in `V1`. -/
theorem test_sneImm_not : run1 0x4155 (two 0x55#8 0x00#8) (fun t => t.pc == 0x202#16) = true := by decide
/-- V-CF-8. -/
theorem test_seReg : run1 0x5121 (two 0x07#8 0x07#8) (fun t => t.pc == 0x204#16) = true := by decide
/-- V-CF-8. -/
theorem test_seReg_not : run1 0x5120 (two 0x07#8 0x08#8) (fun t => t.pc == 0x202#16) = true := by decide
/-- V-CF-8. -/
theorem test_sneReg : run1 0x9120 (two 0x07#8 0x08#8) (fun t => t.pc == 0x204#16) = true := by decide
/-- V-CF-8. -/
theorem test_sneReg_not : run1 0x9120 (two 0x07#8 0x07#8) (fun t => t.pc == 0x202#16) = true := by decide
/-- V-CF-14. -/
theorem test_jpV0 :
    run1 0xBFFF (State.reset.setV 0x0#4 0xFF#8) (fun t => t.pc == 0x10FE#16 && t.status == .running) = true := by
  decide
/-- V-CF-18. -/
theorem test_jpV0_not_V2 : run1 0xB210 (two 0x00#8 0x55#8) (fun t => t.pc == 0x210#16) = true := by decide
/-- V-CF-15. -/
theorem test_seImm_at_the_end :
    run1 0x3000 (State.reset.setPc 0xFFC#16) (fun t => t.pc == 0x1000#16 && t.status == .running) = true := by
  decide
/-- V-CF-16. -/
theorem test_last_word :
    run1 0x6007 (State.reset.setPc 0xFFE#16) (fun t => t.pc == 0x1000#16 && t.getV 0x0#4 == 0x07#8) = true := by
  decide
/-- V-CF-17. -/
theorem test_fetch_fault :
    onNext (step (State.reset.setPc 0xFFF#16))
      (fun t => t.pc == 0xFFF#16 && t.status == .faulted (.outOfRange 0x1000)) = true := by
  decide
/-- V-ALU-2. -/
theorem test_addReg :
    run1 0x8124 (two 0x01#8 0xFF#8) (fun t => v12f t == (0x00#8, 0xFF#8, 0x01#8)) = true := by
  decide
/-- V-ALU-34. -/
theorem test_addReg_into_VF :
    run1 0x8F14 ((two 0x20#8 0#8).setV 0xF#4 0xF0#8) (fun t => v12f t == (0x20#8, 0x00#8, 0x01#8)) = true := by
  decide
/-- V-ALU-8. -/
theorem test_sub : run1 0x8125 (two 0x12#8 0x34#8) (fun t => v12f t == (0xDE#8, 0x34#8, 0x00#8)) = true := by decide
/-- V-ALU-9. -/
theorem test_sub_equal :
    run1 0x8125 (two 0x10#8 0x10#8) (fun t => v12f t == (0x00#8, 0x10#8, 0x01#8)) = true := by
  decide
/-- V-ALU-12. -/
theorem test_subn : run1 0x8127 (two 0x12#8 0x34#8) (fun t => v12f t == (0x22#8, 0x34#8, 0x01#8)) = true := by decide
/-- V-ALU-16. -/
theorem test_subn_borrow :
    run1 0x8127 (two 0x7F#8 0x01#8) (fun t => v12f t == (0x82#8, 0x01#8, 0x00#8)) = true := by
  decide
/-- V-ALU-17. -/
theorem test_shr : run1 0x8126 (two 0xEE#8 0xFF#8) (fun t => v12f t == (0x7F#8, 0xFF#8, 0x01#8)) = true := by decide
/-- V-ALU-41. -/
theorem test_shr_VF_VF :
    run1 0x8FF6 (State.reset.setV 0xF#4 0x02#8) (fun t => t.getV 0xF#4 == 0x00#8) = true := by
  decide
/-- V-ALU-23. -/
theorem test_shl : run1 0x812E (two 0xEE#8 0x55#8) (fun t => v12f t == (0xAA#8, 0x55#8, 0x00#8)) = true := by decide
/-- V-ALU-39. -/
theorem test_shl_from_VF :
    run1 0x80FE (State.reset.setV 0xF#4 0x81#8)
      (fun t => t.getV 0x0#4 == 0x02#8 && t.getV 0xF#4 == 0x01#8) = true := by
  decide
/-- V-ALU-25. -/
theorem test_ldImm : run1 0x61AB (two 0x00#8 0x99#8) (fun t => v12f t == (0xAB#8, 0x99#8, 0x5A#8)) = true := by decide
/-- V-ALU-26. -/
theorem test_addImm :
    run1 0x7101 (two 0xFF#8 0x99#8) (fun t => v12f t == (0x00#8, 0x99#8, 0x5A#8)) = true := by
  decide
/-- V-ALU-28. -/
theorem test_mov : run1 0x8120 (two 0x11#8 0x99#8) (fun t => v12f t == (0x99#8, 0x99#8, 0x5A#8)) = true := by decide
/-- V-ALU-29. -/
theorem test_or : run1 0x8121 (two 0xF0#8 0x3C#8) (fun t => v12f t == (0xFC#8, 0x3C#8, 0x5A#8)) = true := by decide
/-- V-ALU-30. -/
theorem test_and : run1 0x8122 (two 0xF0#8 0x3C#8) (fun t => v12f t == (0x30#8, 0x3C#8, 0x5A#8)) = true := by decide
/-- V-ALU-31. -/
theorem test_xor : run1 0x8123 (two 0xF0#8 0x3C#8) (fun t => v12f t == (0xCC#8, 0x3C#8, 0x5A#8)) = true := by decide
/-- V-ALU-33. -/
theorem test_rnd :
    run1 0xC10F (State.reset.setEnv { Env.silent with rndDraws := [0xB7#8] })
      (fun t => t.getV 0x1#4 == 0x07#8 && t.env.rndCount == 1) = true := by
  decide
/-- R140. -/
theorem test_ldI : run1 0xA300 State.reset (fun t => t.i == 0x300#16) = true := by decide
/-- R141, D12: a sum above 0xFFF is stored. -/
theorem test_addI_above_memory :
    run1 0xF11E ((two 0x01#8 0#8).setI 0x0FFF#16) (fun t => t.i == 0x1000#16 && t.status == .running) = true := by
  decide
/-- R141, D12: a sum above 0xFFFF faults. -/
theorem test_addI_overflow :
    run1 0xF11E ((two 0x01#8 0#8).setI 0xFFFF#16)
      (fun t => t.i == 0xFFFF#16 && t.status == .faulted (.outOfRange 0x10000)) = true := by
  decide
/-- Example S9. -/
theorem test_ldF : run1 0xF129 (two 0x0A#8 0#8) (fun t => t.i == 50#16) = true := by decide
/-- R142, D22: the whole byte times 5. -/
theorem test_ldF_whole_byte : run1 0xF129 (two 0xFF#8 0#8) (fun t => t.i == 1275#16) = true := by decide
/-- Example S6. -/
theorem test_ldB :
    run1 0xF133 ((two 157#8 0#8).setI 0x300#16)
      (fun t => t.mem.readBytes 0x300 3 == [1#8, 5#8, 7#8] && t.i == 0x300#16) = true := by
  decide
/-- P6d: nothing is written. -/
theorem test_ldB_out_of_range :
    run1 0xF133 ((two 157#8 0#8).setI 0xFFE#16)
      (fun t => t.status == .faulted (.outOfRange 0x1000) && t.mem.readBytes 0xFFE 2 == [0#8, 0#8]) = true := by
  decide
/-- The store at 0x202 is the next instruction, 0x1200 (section 2.4, R64). -/
theorem test_stRegs_over_code :
    run1 0xF155 (((two 0x00#8 0#8).setV 0x0#4 0x12#8).setI 0x202#16)
      (fun t => onNext (step t) (fun u => u.pc == 0x200#16)) = true := by
  decide
/-- R144: sixteen bytes from 0xFF1 pass 0xFFF. -/
theorem test_stRegs_range :
    run1 0xFF55 (State.reset.setI 0xFF1#16) (fun t => t.status == .faulted (.outOfRange 0x1000)) = true := by
  decide
/-- R145: `V0` and `V1` only. -/
theorem test_ldRegs :
    run1 0xF165 (at300 [1#8, 5#8, 7#8])
      (fun t => t.getV 0x0#4 == 1#8 && t.getV 0x1#4 == 5#8 && t.getV 0x2#4 == 0#8 && t.i == 0x300#16) = true := by
  decide
/-- P5: the glyph at 0x019. -/
theorem test_font_glyph_5 : State.reset.mem.readBytes 0x19 5 = [0xF0#8, 0x80#8, 0xF0#8, 0x10#8, 0xF0#8] := by decide
/-- Example S10, V-DRW-1. -/
theorem test_cls :
    run1 0x00E0 (State.reset.setFb (oneRow 31 1#64))
      (fun t => t.fb == Vector.replicate 32 0#64 && t.pc == 0x202#16) = true := by
  decide
/-- V-DRW-2, both draws (example S8), and V-DRW-4. -/
theorem test_drw_pixels :
    run1 0xD011 ((at300 [0xFF#8]).setV 0x0#4 60#8)
      (fun t => t.fb == oneRow 0 0xF00000000000000F#64 && t.getV 0xF#4 == 0#8) = true ∧
    run1 0xD011 (((at300 [0xFF#8]).setV 0x0#4 60#8).setFb (oneRow 0 0xF00000000000000F#64))
      (fun t => t.fb == Vector.replicate 32 0#64 && t.getV 0xF#4 == 1#8) = true ∧
    run1 0xD011 ((at300 [0x81#8]).setV 0x0#4 63#8)
      (fun t => Screen.pixel t.fb 0 63 && Screen.pixel t.fb 0 6 && t.fb == oneRow 0 0x0200000000000001#64) = true := by
  decide
/-- V-DRW-6, V-DRW-13, V-DRW-8. -/
theorem test_drw_edges :
    run1 0xD011 ((at300 [0xFF#8]).setV 0x1#4 32#8)
      (fun t => t.fb == Vector.replicate 32 0#64 && t.getV 0xF#4 == 0#8) = true ∧
    run1 0xD013 ((State.reset.setV 0x1#4 31#8).setI 0xFFE#16)
      (fun t => t.status == .faulted (.outOfRange 0x1000)) = true ∧
    run1 0xD010 ((State.reset.setV 0xF#4 0x5A#8).setI 0xFFFF#16)
      (fun t => t.status == .running && t.getV 0xF#4 == 0#8) = true := by
  decide
/-- V-TK-1. -/
theorem test_ldDtVx :
    run1 0xF515 (State.reset.setV 0x5#4 0x3C#8) (fun t => t.dt == 0x3C#8 && t.st == 0#8) = true := by
  decide
/-- V-TK-2. -/
theorem test_ldVxDt :
    run1 0xF507 (State.reset.setDt 0x3C#8) (fun t => t.getV 0x5#4 == 0x3C#8 && t.dt == 0x3C#8) = true := by
  decide
/-- V-TK-3. -/
theorem test_ldStVx :
    run1 0xF518 (State.reset.setV 0x5#4 0x02#8) (fun t => t.st == 0x02#8 && t.dt == 0#8) = true := by
  decide

/-- The reset state with `V6` given and one sample of `KEYS` listed: key 10 held, key 1 not. -/
def keyed (v6 : Byte) (ks : BitVec 16) : State :=
  (State.reset.setV 0x6#4 v6).setEnv { Env.silent with keySamples := [ks] }

/-- V-TK-7, V-TK-9. -/
theorem test_skp :
    run1 0xE69E (keyed 0x1A#8 0x0400#16) (fun t => t.pc == 0x204#16 && t.env.keyCount == 1) = true := by
  decide
/-- V-TK-7. -/
theorem test_skp_not_held : run1 0xE69E (keyed 0x0A#8 0xFBFF#16) (fun t => t.pc == 0x202#16) = true := by decide
/-- V-TK-8. -/
theorem test_sknp : run1 0xE6A1 (keyed 0x0A#8 0xFBFF#16) (fun t => t.pc == 0x204#16) = true := by decide
/-- V-TK-8. -/
theorem test_sknp_held : run1 0xE6A1 (keyed 0x0A#8 0x0400#16) (fun t => t.pc == 0x202#16) = true := by decide
/-- V-TK-10. -/
theorem test_ldVxK :
    run1 0xF20A State.reset
      (fun t => t.pc == 0x202#16 && t.status == .awaitKey 0x2#4 && t.outcome == .awaitingInput) = true := by
  decide
/-- V-TK-12, V-TK-13. -/
theorem test_keyPress :
    ((keyPress 0x7#4 (State.reset.setStatus (.awaitKey 0x2#4))).getV 0x2#4, (keyPress 0x7#4 State.reset).getV 0x2#4) = (0x07#8, 0x00#8) := by
  decide
/-- V-TK-4: a timer at 0 stays. -/
theorem test_tick :
    ((tick ((State.reset.setDt 2#8).setSt 0#8)).dt, (tick ((State.reset.setDt 2#8).setSt 0#8)).st) = (1#8, 0#8) := by
  decide
/-- V-TK-5. -/
theorem test_tick_while_awaiting : (tick ((State.reset.setDt 5#8).setStatus (.awaitKey 0x2#4))).dt = 5#8 := by decide
/-- V-RST-1. -/
theorem test_first_step_from_reset :
    onNext (step State.reset) (fun t => t.pc == 0x202#16 && t.status == .faulted (.decodeFailure 0#16)) = true := by
  decide

/-- The default FONT as a vector (R53). -/
def defaultFont : Vector Byte 80 := Vector.ofFn fun j => fontByte j.val

/-- A faulted state, a waiting one, and one that lists events. -/
def faulted : State := State.reset.setStatus (.faulted (.decodeFailure 0#16))
def waiting : State := State.reset.setStatus (.awaitKey 0xF#4)
def scheduled (es : List Event) (s : State) : State := s.setEnv { s.env with schedule := es }

/-- V-RST-3, V-TK-16. -/
theorem test_reset_event :
    onNext (step (scheduled [.reset defaultFont [0xAB#8]] faulted))
      (fun t => t.status == .running && t.mem == [(0x200, 0xAB#8)]) = true := by
  decide
/-- Log 11: no event listed in status `FAULTED` ends the run with the fault. -/
theorem test_faulted_ends_the_run : step faulted = .fault (.decodeFailure 0#16) := rfl

/-! ### Witnesses: what meets the hypotheses of each obligation, each clause at a boundary -/

theorem reset_notFaulted : NotFaulted State.reset := fun _ h => nomatch h

theorem witness_DecodeOfEncodeIsIdentity : (Instr.jp 0xFFF#12).wellFormed = true := by decide
theorem witness_LegalWordsEncodeBack :
    decodeWord 0x5FFF#16 = .ok (.seReg 0xF#4 0xF#4) ∧ decodeWord 0xDFFF#16 = .ok (.drw 0xF#4 0xF#4 0xF#4) :=
  ⟨rfl, rfl⟩
theorem witness_OpcodeMapDecidesTheDecode :
    (∃ r ∈ opcodeTable, r.selects 0xFF65#16 = true) ∧ ∀ r ∈ opcodeTable, r.selects 0xFFFF#16 = false := by decide
theorem witness_IllegalWordsAreExactlyThese :
    isIllegal 0x0FFF#16 = true ∧ isIllegal 0x800F#16 = true ∧ isIllegal 0xE09F#16 = true ∧
      isIllegal 0xFFFF#16 = true := by decide

/-- Every mask and match of the opcode map is met by its own match word: the hypothesis of `EncodedBy`. -/
theorem witness_EncodedBy : (opcodeTable.all fun r => decide (r.pat &&& r.mask = r.pat)) = true := by decide

/-- 0x6007 as the last word of memory, `PC` there. -/
def atLastWord (hi lo : Byte) : State := (State.reset.setMem (Memory.writeBytes [] 0xFFE [hi, lo])).setPc 0xFFE#16

theorem witness_StepRunsTheDecodedInstruction :
    let s := atLastWord 0x60#8 0x07#8
    s.env.schedule = [] ∧ s.status = .running ∧ s.pc.toNat ≤ 0xFFE ∧
      decodeWord (wordAtPc s) = .ok (.ldImm 0x0#4 0x07#8) :=
  ⟨rfl, rfl, by decide, rfl⟩
theorem witness_StepRunsTheDecodedInstruction_listed :
    let s := scheduled [.step, .tick] (atLastWord 0x60#8 0x07#8)
    s.env.schedule = .step :: [.tick] ∧ s.status = .running ∧ s.pc.toNat ≤ 0xFFE ∧
      decodeWord (wordAtPc s) = .ok (.ldImm 0x0#4 0x07#8) :=
  ⟨rfl, rfl, by decide, rfl⟩
theorem witness_FetchBeyondMemoryFaults :
    let s := State.reset.setPc 0xFFF#16
    s.env.schedule = [] ∧ s.status = .running ∧ 0xFFE < s.pc.toNat := by decide
theorem witness_FetchBeyondMemoryFaults_listed :
    let s := scheduled [.step, .tick] (State.reset.setPc 0xFFFF#16)
    s.env.schedule = .step :: [.tick] ∧ s.status = .running ∧ 0xFFE < s.pc.toNat := by decide
theorem witness_IllegalWordFaultsWithItsValue :
    let s := atLastWord 0xFF#8 0xFF#8
    s.status = .running ∧ s.pc.toNat ≤ 0xFFE ∧ ∀ r ∈ opcodeTable, r.selects (wordAtPc s) = false := by decide
theorem witness_FaultedStatusIsAbsorbing :
    faulted.status = .faulted (.decodeFailure 0#16) ∧ faulted.env.schedule = [] := by decide
theorem witness_FaultedStatusIsAbsorbing_listed :
    let s := scheduled [.keyPress 0xF#4] faulted
    s.status = .faulted (.decodeFailure 0#16) ∧ onNext (step s) (fun _ => true) = true ∧
      ∀ font image, s.env.schedule.head? ≠ some (.reset font image) :=
  ⟨rfl, rfl, fun _ _ h => by cases h⟩
theorem witness_AwaitKeyFreezesStepAndTick : waiting.status = .awaitKey 0xF#4 ∧ waiting.env.schedule = [] := by decide
theorem witness_FaultDiscardsEveryWrite :
    NotFaulted State.reset ∧ exec .ret State.reset = .next (State.reset.setStatus (.faulted .stackUnderflow)) :=
  ⟨reset_notFaulted, rfl⟩

/-- Each fault of `WhichInstructionRaisesWhat` is raised somewhere. -/
theorem witness_WhichInstructionRaisesWhat :
    onNext (exec .ret (stacked 0)) (fun t => t.status == .faulted .stackUnderflow) = true ∧
    onNext (exec (.call 0x300#12) (stacked 16)) (fun t => t.status == .faulted .stackOverflow) = true ∧
    onNext (exec (.drw 0x0#4 0x0#4 0xF#4) (State.reset.setI 0xFF2#16))
      (fun t => t.status == .faulted (.outOfRange 0x1000)) = true ∧
    onNext (exec (.ldB 0x0#4) (State.reset.setI 0xFFFF#16)) (fun t => t.status == .faulted (.outOfRange 0xFFFF)) = true ∧
    onNext (exec (.stRegs 0x0#4) (State.reset.setI 0x1000#16))
      (fun t => t.status == .faulted (.outOfRange 0x1000)) = true ∧
    onNext (exec (.ldRegs 0xF#4) (State.reset.setI 0xFF1#16))
      (fun t => t.status == .faulted (.outOfRange 0x1000)) = true ∧
    onNext (exec (.addI 0x1#4) ((two 0x01#8 0#8).setI 0xFFFF#16))
      (fun t => t.status == .faulted (.outOfRange 0x10000)) = true := by decide

theorem witness_OnlyControlTransfersWritePC :
    onNext (exec (.jpV0 0xFFF#12) State.reset) (fun t => t.pc != State.reset.pc) = true ∧
    onNext (exec (.seReg 0x0#4 0x0#4) State.reset) (fun t => t.pc != State.reset.pc) = true := by decide
theorem witness_OnlyIndexInstructionsWriteI :
    onNext (exec (.addI 0x1#4) (two 0xFF#8 0#8)) (fun t => t.i != (two 0xFF#8 0#8).i) = true ∧
    onNext (exec (.ldF 0x1#4) (two 0xFF#8 0#8)) (fun t => t.i != (two 0xFF#8 0#8).i) = true := by decide
theorem witness_OnlyFourInstructionsReachMemory :
    let s := (two 157#8 0#8).setI 0xFFD#16
    onNext (exec (.ldB 0x1#4) s) (fun t => t.mem.read 0xFFF != s.mem.read 0xFFF) = true ∧
    onNext (exec (.stRegs 0x1#4) s) (fun t => t.mem.read 0xFFE != s.mem.read 0xFFE) = true := by decide
theorem witness_OnlyFourInstructionsReachMemory_reads :
    (∀ x y n, Instr.ldB 0xF#4 ≠ .drw x y n) ∧ (∀ x, Instr.ldB 0xF#4 ≠ .ldRegs x) ∧
      onNext (exec (.ldB 0xF#4) State.reset) (fun _ => true) = true ∧
      Memory.read [(0x300, 1#8)] State.reset.pc.toNat = State.reset.mem.read State.reset.pc.toNat ∧
      Memory.read [(0x300, 1#8)] (State.reset.pc.toNat + 1) = State.reset.mem.read (State.reset.pc.toNat + 1) :=
  ⟨(fun _ _ _ h => nomatch h), (fun _ h => nomatch h), by decide, by decide, by decide⟩
theorem witness_OnlyFlagInstructionsWriteVFUnnamed :
    NotFaulted (two 0xFF#8 0x01#8) ∧
    onNext (exec (.addReg 0x1#4 0x2#4) (two 0xFF#8 0x01#8)) (fun t => t.status == .running) = true ∧
    onNext (exec (.mov 0xF#4 0x1#4) (two 0xFF#8 0x01#8)) (fun t => t.getV 0xF#4 == 0xFF#8) = true :=
  ⟨(fun _ h => nomatch h), by decide, by decide⟩

/-- Each clause of `WritersOfTimersStackScreenStatusInputs` has an instruction that meets its premise. -/
theorem witness_WritersOfTimersStackScreenStatusInputs :
    onNext (exec (.ldDtVx 0x1#4) (two 1#8 0#8)) (fun t => t.dt != 0#8) = true ∧
    onNext (exec (.ldStVx 0x1#4) (two 1#8 0#8)) (fun t => t.st != 0#8) = true ∧
    onNext (exec .ret (stacked 16)) (fun t => t.sp != 16) = true ∧
    onNext (exec (.call 0#12) State.reset) (fun t => t.stack != State.reset.stack) = true ∧
    onNext (exec .cls (State.reset.setFb (oneRow 31 1#64))) (fun t => t.fb != oneRow 31 1#64) = true ∧
    onNext (exec (.ldVxK 0xF#4) State.reset) (fun t => t.status == .awaitKey 0xF#4) = true ∧
    onNext (exec (.sknp 0x6#4) (keyed 0#8 0#16)) (fun t => t.env.keyCount != 0) = true := by decide

theorem witness_ListedEventsHappenInOrder :
    (scheduled [.tick, .step] State.reset).env.schedule = .tick :: [.step] ∧
    (scheduled [.keyPress 0xF#4] State.reset).env.schedule = .keyPress 0xF#4 :: [] ∧
    (scheduled [.step] State.reset).env.schedule = .step :: [] ∧
    waiting.env.schedule = [] ∧ NotFaulted waiting :=
  ⟨rfl, rfl, rfl, rfl, fun _ h => nomatch h⟩
theorem witness_ListedEventsHappenInOrder_faulted :
    faulted.env.schedule = [] ∧ faulted.status = .faulted (.decodeFailure 0#16) := by decide

/-- A listed `Reset` of the longest image is constructed, and one of an image one byte longer is not. -/
theorem witness_ListedEventsHappenInOrder_reset :
    (scheduled [.reset defaultFont (List.replicate 3584 0xFF#8)] waiting).env.schedule =
      .reset defaultFont (List.replicate 3584 0xFF#8) :: [] ∧
    (construct defaultFont (List.replicate 3584 0xFF#8) Env.silent).isSome = true ∧
    construct defaultFont (List.replicate 3585 0xFF#8) Env.silent = none := by
  refine ⟨rfl, ?_, ?_⟩
  · rw [construct, if_pos (by rw [List.length_replicate]; exact Nat.le_refl _)]; rfl
  · rw [construct, if_neg (by rw [List.length_replicate]; exact Nat.not_succ_le_self _)]
theorem witness_TickDecrementsBothTimers :
    ((State.reset.setDt 0xFF#8).setSt 0#8).status = .running ∧ waiting.status ≠ .running ∧ faulted.status ≠ .running := by
  decide
theorem witness_KeyPressEndsTheWait :
    waiting.status = .awaitKey 0xF#4 ∧ (∀ x, State.reset.status ≠ .awaitKey x) ∧ ∀ x, faulted.status ≠ .awaitKey x :=
  ⟨rfl, (fun _ h => nomatch h), (fun _ h => nomatch h)⟩

/-- The longest image, the empty one, and one byte too many. -/
theorem witness_ResetLoadsFontAndImage (s : State) :
    let image := List.replicate 3584 0xFF#8
    (scheduled [.reset defaultFont image] s).env.schedule = .reset defaultFont image :: [] ∧ image.length ≤ 3584 :=
  ⟨rfl, by rw [List.length_replicate]⟩
theorem witness_ResetLoadsFontAndImage_empty :
    (scheduled [.reset defaultFont []] faulted).env.schedule = .reset defaultFont [] :: [] ∧
      ([] : List Byte).length ≤ 3584 :=
  ⟨rfl, Nat.zero_le _⟩
theorem witness_OversizedImageIsRefused (s : State) :
    let image := List.replicate 3585 0xFF#8
    (scheduled [.reset defaultFont image] s).env.schedule = .reset defaultFont image :: [] ∧ 3584 < image.length :=
  ⟨rfl, by rw [List.length_replicate]; decide⟩
theorem witness_ResetStateIsTheEmptyImageReset : ∀ j : Nat, j < 80 → defaultFont[j]? = some (fontByte j) := by
  intro j h
  simp [defaultFont, h]
theorem witness_FramebufferNotificationMarksClsAndDrw :
    fbTouched (State.reset.withFetchWord 16 0xD010) = true ∧ fbTouched State.reset = false := by decide

/-- Addresses where the clauses of `MemReadChecksItsRange` meet. -/
theorem witness_MemReadChecksItsRange :
    0xFFF < 0x1000 + 1 - 1 ∧ 0xFFF < 0xFFF + 2 - 1 ∧ 0xFFF + 1 - 1 ≤ 0xFFF ∧ 0xFFE + 2 - 1 ≤ 0xFFF := by decide
theorem witness_MemoryReadsBackWhatWasWritten :
    Memory.wf [(0x200, 0x12#8), (0xFFF, 0x01#8)] = true ∧ 0xFFF ≤ 0xFFF := by decide
theorem witness_EqualMemoriesAreEqualData :
    Memory.wf (Memory.write [] 0xFFF 0x01#8) = true ∧ Memory.wf [(0xFFF, 0x01#8)] = true ∧
      ∀ a : Nat, Memory.read (Memory.write [] 0xFFF 0x01#8) a = Memory.read [(0xFFF, 0x01#8)] a :=
  ⟨by decide, by decide, fun _ => rfl⟩
theorem witness_StackIsLastInFirstOut :
    State.reset.sp.val + (List.replicate 16 0x0202#16).length ≤ 16 ∧ (stacked 16).sp.val = 16 ∧
      (stacked 0).sp.val = 0 ∧ (stacked 15).sp.val < 16 ∧ 0 < (stacked 1).sp.val := by decide

/-- A state that meets the invariant with one return address in use, and its step. -/
theorem witness_EveryStepKeepsTheInvariant :
    let s := (stacked 1).withFetchWord 16 0x00EE
    Inv s ∧ onNext (step s) (fun t => t.pc == 0x202#16) = true := by
  refine ⟨⟨by decide, by decide, fun j h => ?_⟩, by decide⟩
  have h1 : j < 1 := h
  obtain rfl : j = 0 := by omega
  decide

/-- Ranges that end at the last byte of memory, and those one byte further. -/
theorem witness_inRange :
    InRange 0xFF1 15 ∧ InRange 0xFFFF 0 ∧ InRange 0xFFD 3 ∧ InRange 0xFF0 16 ∧ InRange 0xFFF 1 := by
  unfold InRange; decide
theorem witness_notInRange :
    ¬ InRange 0xFF2 15 ∧ ¬ InRange 0x1000 1 ∧ ¬ InRange 0xFFE 3 ∧ ¬ InRange 0xFF1 16 := by
  unfold InRange; decide
theorem witness_DrawXorsTheSpriteAndReportsCollision :
    InRange (State.reset.setI 0xFF1#16).i.toNat (0xF#4 : Nibble).toNat ∧
      ¬ InRange (State.reset.setI 0xFF2#16).i.toNat (0xF#4 : Nibble).toNat := by
  unfold InRange; decide
theorem witness_DrawingTwiceRestoresTheFramebuffer :
    (0xE#4 : Nibble) ≠ 0xF#4 ∧ (0x0#4 : Nibble) ≠ 0xF#4 ∧
      InRange (State.reset.setI 0xFF1#16).i.toNat (0xF#4 : Nibble).toNat := by
  unfold InRange; decide
theorem witness_ReturnPopsIntoPC : 0 < (stacked 16).sp.val ∧ 0 < (stacked 1).sp.val ∧ (stacked 0).sp.val = 0 := by decide
theorem witness_CallPushesAndJumps :
    (stacked 0).sp.val < 16 ∧ (stacked 15).sp.val < 16 ∧ (stacked 16).sp.val = 16 := by decide
theorem witness_RandomMasksOneDraw :
    (State.reset.setEnv { Env.silent with rndDraws := [0xFF#8] }).env.rndDraws = 0xFF#8 :: [] := rfl
theorem witness_KeySkipsSampleOneKey : (keyed 0x0F#8 0x8000#16).env.keySamples = 0x8000#16 :: [] := rfl
theorem witness_AddIndexStoresSixteenBitSums :
    ((two 0xFF#8 0#8).setI 0xFF00#16).i.toNat + (((two 0xFF#8 0#8).setI 0xFF00#16).getV 0x1#4).toNat ≤ 0xFFFF ∧
    0xFFFF < ((two 0xFF#8 0#8).setI 0xFF01#16).i.toNat + (((two 0xFF#8 0#8).setI 0xFF01#16).getV 0x1#4).toNat := by
  decide
theorem witness_StoreBcdWritesThreeDigits :
    let s := State.reset.setI 0xFFD#16
    s.mem.wf = true ∧ InRange s.i.toNat 3 ∧ ¬ InRange (State.reset.setI 0xFFE#16).i.toNat 3 := by
  unfold InRange; decide

/-- The full block at the last place it fits, and one byte further: for `ST_REGS`, `LD_REGS` and the round trip. -/
theorem witness_RegisterBlocks :
    let s := State.reset.setI 0xFF0#16
    s.mem.wf = true ∧ InRange s.i.toNat ((0xF#4 : Nibble).toNat + 1) ∧
      ¬ InRange (State.reset.setI 0xFF1#16).i.toNat ((0xF#4 : Nibble).toNat + 1) := by
  unfold InRange; decide

end Sys2Proof.Tests
end

section
/-! PROOFS. What an instruction can do, said once: the graph of `exec` as a relation with one constructor for each
kind of effect (10_state.md sections 1 to 8). The claims about which instruction may write what are case analyses
over these effects. -/

namespace Sys2Proof.Machine

/-! ### The kinds of effect -/

/-- The instructions whose one effect is that register `x`, which they name, takes the byte `b` (R121 to R126, R160). -/
inductive LoadsReg (s : State) : Instr → Nibble → Byte → Prop
  | ldImm (x : Nibble) (kk : Byte) : LoadsReg s (.ldImm x kk) x kk
  | addImm (x : Nibble) (kk : Byte) : LoadsReg s (.addImm x kk) x (s.getV x + kk)
  | mov (x y : Nibble) : LoadsReg s (.mov x y) x (s.getV y)
  | or (x y : Nibble) : LoadsReg s (.or x y) x (s.getV x ||| s.getV y)
  | and (x y : Nibble) : LoadsReg s (.and x y) x (s.getV x &&& s.getV y)
  | xor (x y : Nibble) : LoadsReg s (.xor x y) x (s.getV x ^^^ s.getV y)
  | ldVxDt (x : Nibble) : LoadsReg s (.ldVxDt x) x s.dt

/-- The instructions that write the byte `b` to register `x` and then the flag `c` to `VF` (R127 to R131). -/
inductive LoadsRegAndFlag (s : State) : Instr → Nibble → Byte → Bool → Prop
  | addReg (x y : Nibble) :
      LoadsRegAndFlag s (.addReg x y) x (s.getV x + s.getV y) (carryOf (s.getV x) (s.getV y))
  | sub (x y : Nibble) :
      LoadsRegAndFlag s (.sub x y) x (s.getV x - s.getV y) (noBorrowOf (s.getV x) (s.getV y))
  | subn (x y : Nibble) :
      LoadsRegAndFlag s (.subn x y) x (s.getV y - s.getV x) (noBorrowOf (s.getV y) (s.getV x))
  | shr (x y : Nibble) : LoadsRegAndFlag s (.shr x y) x (s.getV y >>> 1) (shrOutOf (s.getV y))
  | shl (x y : Nibble) : LoadsRegAndFlag s (.shl x y) x (s.getV y <<< 1) (shlOutOf (s.getV y))

/-- The skips on registers, with the condition under which they skip (R104 to R107). -/
inductive SkipsOn (s : State) : Instr → Bool → Prop
  | seImm (x : Nibble) (kk : Byte) : SkipsOn s (.seImm x kk) (decide (s.getV x = kk))
  | sneImm (x : Nibble) (kk : Byte) : SkipsOn s (.sneImm x kk) (decide (s.getV x ≠ kk))
  | seReg (x y : Nibble) : SkipsOn s (.seReg x y) (decide (s.getV x = s.getV y))
  | sneReg (x y : Nibble) : SkipsOn s (.sneReg x y) (decide (s.getV x ≠ s.getV y))

/-- The skips on a sampled key, with the condition under which they skip (R163, R164). -/
inductive SkipsOnKey (s : State) : Instr → Bool → Prop
  | skp (x : Nibble) : SkipsOnKey s (.skp x) (s.keyDown (keyOf (s.getV x)))
  | sknp (x : Nibble) : SkipsOnKey s (.sknp x) (!s.keyDown (keyOf (s.getV x)))

/-- The instructions that write the word `w` to `I` (R140 to R142). -/
inductive LoadsI (s : State) : Instr → Word → Prop
  | ldI (nnn : Addr) : LoadsI s (.ldI nnn) (zextAddr nnn)
  | addI (x : Nibble) (h : s.i.toNat + (s.getV x).toNat ≤ 0xFFFF) : LoadsI s (.addI x) (s.i + zextByte (s.getV x))
  | ldF (x : Nibble) : LoadsI s (.ldF x) (glyphAddr (s.getV x))

/-- The instructions that store the bytes `bs` from address `I` on (R143, R144). -/
inductive Stores (s : State) : Instr → List Byte → Prop
  | ldB (x : Nibble) : Stores s (.ldB x) (bcdDigits (s.getV x))
  | stRegs (x : Nibble) : Stores s (.stRegs x) (s.regBlock x)

/-- The fault `f` an instruction raises, with the condition under which it does (R172 to R175). -/
inductive Raises (s : State) : Instr → Fault → Prop
  | ret (h : s.sp.val = 0) : Raises s .ret .stackUnderflow
  | call (nnn : Addr) (h : s.sp.val = 16) : Raises s (.call nnn) .stackOverflow
  | drw (x y n : Nibble) (h : ¬ InRange s.i.toNat n.toNat) :
      Raises s (.drw x y n) (.outOfRange (max s.i.toNat 0x1000))
  | addI (x : Nibble) (h : 0xFFFF < s.i.toNat + (s.getV x).toNat) :
      Raises s (.addI x) (.outOfRange (s.i.toNat + (s.getV x).toNat))
  | ldB (x : Nibble) (h : ¬ InRange s.i.toNat 3) : Raises s (.ldB x) (.outOfRange (max s.i.toNat 0x1000))
  | stRegs (x : Nibble) (h : ¬ InRange s.i.toNat (x.toNat + 1)) :
      Raises s (.stRegs x) (.outOfRange (max s.i.toNat 0x1000))
  | ldRegs (x : Nibble) (h : ¬ InRange s.i.toNat (x.toNat + 1)) :
      Raises s (.ldRegs x) (.outOfRange (max s.i.toNat 0x1000))

/-- Everything an instruction can do to the state `s`, whose `PC` is already advanced. -/
inductive Effect (s : State) : Instr → State → Prop
  | fault {i : Instr} {f : Fault} (h : Raises s i f) : Effect s i (s.setStatus (.faulted f))
  | reg {i : Instr} {x : Nibble} {b : Byte} (h : LoadsReg s i x b) : Effect s i (s.setV x b)
  | rnd (x : Nibble) (kk : Byte) : Effect s (.rnd x kk) (s.rndTaken.setV x (s.rndByte &&& kk))
  | regAndFlag {i : Instr} {x : Nibble} {b : Byte} {c : Bool} (h : LoadsRegAndFlag s i x b c) :
      Effect s i (s.setVFlag x b c)
  | ldRegs (x : Nibble) (h : InRange s.i.toNat (x.toNat + 1)) :
      Effect s (.ldRegs x) (s.setRegs (loadRegs s.v 0 (s.mem.readBytes s.i.toNat (x.toNat + 1))))
  | index {i : Instr} {w : Word} (h : LoadsI s i w) : Effect s i (s.setI w)
  | store {i : Instr} {bs : List Byte} (h : Stores s i bs) (hr : InRange s.i.toNat bs.length) :
      Effect s i (s.setMem (s.mem.writeBytes s.i.toNat bs))
  | skip {i : Instr} {c : Bool} (h : SkipsOn s i c) : Effect s i (s.skipIf c)
  | skipOnKey {i : Instr} {c : Bool} (h : SkipsOnKey s i c) : Effect s i (s.keysTaken.skipIf c)
  | jp (nnn : Addr) : Effect s (.jp nnn) (s.setPc (zextAddr nnn))
  | jpV0 (nnn : Addr) : Effect s (.jpV0 nnn) (s.setPc (offsetTarget nnn (s.getV 0x0#4)))
  | call (nnn : Addr) (h : s.sp.val < 16) :
      Effect s (.call nnn)
        ((s.setStack (s.stack.set s.sp.val s.pc h) ⟨s.sp.val + 1, Nat.succ_lt_succ h⟩).setPc (zextAddr nnn))
  | ret (h : s.sp.val ≠ 0) :
      Effect s .ret ((s.setStack s.stack (spPred s.sp)).setPc (s.stack[s.sp.val - 1]?.getD 0#16))
  | cls : Effect s .cls (s.setFb (Vector.replicate 32 0#64))
  | drw (x y n : Nibble) (h : InRange s.i.toNat n.toNat) :
      Effect s (.drw x y n) ((s.setFb (drawnBy x y n s).1).setFlag (drawnBy x y n s).2)
  | ldDtVx (x : Nibble) : Effect s (.ldDtVx x) (s.setDt (s.getV x))
  | ldStVx (x : Nibble) : Effect s (.ldStVx x) (s.setSt (s.getV x))
  | ldVxK (x : Nibble) : Effect s (.ldVxK x) (s.setStatus (.awaitKey x))

/-- Every instruction answers a next state, and that state is one of its effects. -/
theorem exec_answers (i : Instr) (s : State) : ∃ t, exec i s = .next t ∧ Effect s i t := by
  cases i with
  | cls => exact ⟨_, rfl, .cls⟩
  | ret =>
    obtain ⟨h, e⟩ | ⟨h, e⟩ := execRet_cases s
    · exact ⟨_, e, .fault (.ret h)⟩
    · exact ⟨_, e, .ret h⟩
  | jp nnn => exact ⟨_, rfl, .jp nnn⟩
  | call nnn =>
    obtain ⟨h, e⟩ | ⟨h, u, hu, e⟩ := execCall_cases nnn s
    · exact ⟨_, e, .fault (.call nnn h)⟩
    · rw [State.push_room s s.pc h] at hu
      obtain rfl := Option.some.inj hu
      exact ⟨_, e, .call nnn h⟩
  | seImm x kk => exact ⟨_, rfl, .skip (.seImm x kk)⟩
  | sneImm x kk => exact ⟨_, rfl, .skip (.sneImm x kk)⟩
  | seReg x y => exact ⟨_, rfl, .skip (.seReg x y)⟩
  | ldImm x kk => exact ⟨_, rfl, .reg (.ldImm x kk)⟩
  | addImm x kk => exact ⟨_, rfl, .reg (.addImm x kk)⟩
  | mov x y => exact ⟨_, rfl, .reg (.mov x y)⟩
  | or x y => exact ⟨_, rfl, .reg (.or x y)⟩
  | and x y => exact ⟨_, rfl, .reg (.and x y)⟩
  | xor x y => exact ⟨_, rfl, .reg (.xor x y)⟩
  | addReg x y => exact ⟨_, rfl, .regAndFlag (.addReg x y)⟩
  | sub x y => exact ⟨_, rfl, .regAndFlag (.sub x y)⟩
  | shr x y => exact ⟨_, rfl, .regAndFlag (.shr x y)⟩
  | subn x y => exact ⟨_, rfl, .regAndFlag (.subn x y)⟩
  | shl x y => exact ⟨_, rfl, .regAndFlag (.shl x y)⟩
  | sneReg x y => exact ⟨_, rfl, .skip (.sneReg x y)⟩
  | ldI nnn => exact ⟨_, rfl, .index (.ldI nnn)⟩
  | jpV0 nnn => exact ⟨_, rfl, .jpV0 nnn⟩
  | rnd x kk => exact ⟨_, rfl, .rnd x kk⟩
  | drw x y n =>
    obtain ⟨h, e⟩ | ⟨h, e⟩ := execDrw_cases x y n s
    · exact ⟨_, e, .drw x y n h⟩
    · exact ⟨_, e, .fault (.drw x y n h)⟩
  | skp x => exact ⟨_, rfl, .skipOnKey (.skp x)⟩
  | sknp x => exact ⟨_, rfl, .skipOnKey (.sknp x)⟩
  | ldVxDt x => exact ⟨_, rfl, .reg (.ldVxDt x)⟩
  | ldVxK x => exact ⟨_, rfl, .ldVxK x⟩
  | ldDtVx x => exact ⟨_, rfl, .ldDtVx x⟩
  | ldStVx x => exact ⟨_, rfl, .ldStVx x⟩
  | addI x =>
    obtain ⟨h, e⟩ | ⟨h, e⟩ := execAddI_cases x s
    · exact ⟨_, e, .index (.addI x h)⟩
    · exact ⟨_, e, .fault (.addI x h)⟩
  | ldF x => exact ⟨_, rfl, .index (.ldF x)⟩
  | ldB x =>
    obtain ⟨h, e⟩ | ⟨h, e⟩ := execLdB_cases x s
    · exact ⟨_, e, .store (.ldB x) h⟩
    · exact ⟨_, e, .fault (.ldB x h)⟩
  | stRegs x =>
    obtain ⟨h, e⟩ | ⟨h, e⟩ := execStRegs_cases x s
    · exact ⟨_, e, .store (.stRegs x) (by rwa [State.length_regBlock])⟩
    · exact ⟨_, e, .fault (.stRegs x h)⟩
  | ldRegs x =>
    obtain ⟨h, e⟩ | ⟨h, e⟩ := execLdRegs_cases x s
    · exact ⟨_, e, .ldRegs x h⟩
    · exact ⟨_, e, .fault (.ldRegs x h)⟩

/-- The inversion of `exec`: a state it answers is one of the effects of the instruction. -/
theorem effect_of_exec {i : Instr} {s t : State} (h : exec i s = .next t) : Effect s i t := by
  obtain ⟨u, hu, hE⟩ := exec_answers i s
  cases hu.symm.trans h
  exact hE

/-! ### The writers of each part of the state -/

section Writers

variable {i : Instr} {s t : State}

/-- Beyond the advance only the control transfers and the skips write `PC` (R26). -/
theorem Effect.pc_writers (h : Effect s i t) (hne : t.pc ≠ s.pc) :
    i = .ret ∨ (∃ nnn, i = .jp nnn ∨ i = .call nnn ∨ i = .jpV0 nnn) ∨
      (t.pc = s.pc + 2#16 ∧ ∃ c, SkipsOn s i c ∨ SkipsOnKey s i c) := by
  cases h with
  | ret => exact .inl rfl
  | jp nnn => exact .inr (.inl ⟨nnn, .inl rfl⟩)
  | call nnn => exact .inr (.inl ⟨nnn, .inr (.inl rfl)⟩)
  | jpV0 nnn => exact .inr (.inl ⟨nnn, .inr (.inr rfl)⟩)
  | @skip _ c hs =>
    cases c with
    | true => exact .inr (.inr ⟨rfl, true, .inl hs⟩)
    | false => exact absurd rfl hne
  | @skipOnKey _ c hs =>
    cases c with
    | true => exact .inr (.inr ⟨rfl, true, .inr hs⟩)
    | false => exact absurd rfl hne
  | _ => exact absurd rfl hne

theorem Effect.i_writers (h : Effect s i t) (hne : t.i ≠ s.i) : ∃ w, LoadsI s i w := by
  cases h with
  | index hi => exact ⟨_, hi⟩
  | _ => exact absurd rfl hne

theorem Effect.dt_writers (h : Effect s i t) (hne : t.dt ≠ s.dt) : ∃ x, i = .ldDtVx x := by
  cases h with
  | ldDtVx x => exact ⟨x, rfl⟩
  | _ => exact absurd rfl hne

theorem Effect.st_writers (h : Effect s i t) (hne : t.st ≠ s.st) : ∃ x, i = .ldStVx x := by
  cases h with
  | ldStVx x => exact ⟨x, rfl⟩
  | _ => exact absurd rfl hne

theorem Effect.sp_writers (h : Effect s i t) (hne : t.sp ≠ s.sp) : i = .ret ∨ ∃ nnn, i = .call nnn := by
  cases h with
  | ret => exact .inl rfl
  | call nnn => exact .inr ⟨nnn, rfl⟩
  | _ => exact absurd rfl hne

theorem Effect.stack_writers (h : Effect s i t) (hne : t.stack ≠ s.stack) : ∃ nnn, i = .call nnn := by
  cases h with
  | call nnn => exact ⟨nnn, rfl⟩
  | _ => exact absurd rfl hne

theorem Effect.fb_writers (h : Effect s i t) (hne : t.fb ≠ s.fb) : i = .cls ∨ ∃ x y n, i = .drw x y n := by
  cases h with
  | cls => exact .inl rfl
  | drw x y n => exact .inr ⟨x, y, n, rfl⟩
  | _ => exact absurd rfl hne

theorem Effect.status_writers (h : Effect s i t) (hne : t.status ≠ s.status) :
    (∃ x, i = .ldVxK x ∧ t.status = .awaitKey x) ∨ ∃ f, t.status = .faulted f := by
  cases h with
  | ldVxK x => exact .inl ⟨x, rfl, rfl⟩
  | fault => exact .inr ⟨_, rfl⟩
  | _ => exact absurd rfl hne

theorem Effect.env_writers (h : Effect s i t) (hne : t.env ≠ s.env) :
    (∃ x kk, i = .rnd x kk) ∨ ∃ x, i = .skp x ∨ i = .sknp x := by
  cases h with
  | rnd x kk => exact .inl ⟨x, kk, rfl⟩
  | skipOnKey hs =>
    cases hs with
    | skp x => exact .inr ⟨x, .inl rfl⟩
    | sknp x => exact .inr ⟨x, .inr rfl⟩
  | _ => exact absurd rfl hne

end Writers

/-- Settles O14: the effects that write `PC` are the control transfers and the taken skips. -/
theorem onlyControlTransfersWritePC : Obligations.OnlyControlTransfersWritePC := by
  intro i s t h hne
  obtain hret | hjump | ⟨hpc, c, hs | hs⟩ := (effect_of_exec h).pc_writers hne
  · exact .inl hret
  · exact .inr (.inl hjump)
  · refine .inr (.inr ⟨hpc, ?_⟩)
    cases hs with
    | seImm x kk => exact .inl ⟨x, kk, .inl rfl⟩
    | sneImm x kk => exact .inl ⟨x, kk, .inr rfl⟩
    | seReg x y => exact .inr (.inl ⟨x, y, .inl rfl⟩)
    | sneReg x y => exact .inr (.inl ⟨x, y, .inr rfl⟩)
  · refine .inr (.inr ⟨hpc, .inr (.inr ?_)⟩)
    cases hs with
    | skp x => exact ⟨x, .inl rfl⟩
    | sknp x => exact ⟨x, .inr rfl⟩

/-- Settles O15: the one effect that writes `I` is that of LD_I, ADD_I and LD_F. -/
theorem onlyIndexInstructionsWriteI : Obligations.OnlyIndexInstructionsWriteI := by
  intro i s t h hne
  obtain ⟨w, hw⟩ := (effect_of_exec h).i_writers hne
  cases hw with
  | ldI nnn => exact .inl ⟨nnn, rfl⟩
  | addI x => exact .inr (.inl ⟨x, rfl⟩)
  | ldF x => exact .inr (.inr ⟨x, rfl⟩)

/-- Settles O18: the writers of each part, read off the effects. -/
theorem writersOfTimersStackScreenStatusInputs : Obligations.WritersOfTimersStackScreenStatusInputs := by
  intro i s t h
  have hE := effect_of_exec h
  exact ⟨hE.dt_writers, hE.st_writers, hE.sp_writers, hE.stack_writers, hE.fb_writers, hE.status_writers,
    hE.env_writers⟩

end Sys2Proof.Machine
end

section
/-! PROOFS. `VF` is a flag of six instructions and otherwise an ordinary register (10_state.md R21). -/

namespace Sys2Proof.Machine

theorem flagByte_zero_or_one (c : Bool) : flagByte c = 0x00#8 ∨ flagByte c = 0x01#8 := by
  cases c with
  | false => exact .inl rfl
  | true => exact .inr rfl

/-- A register write that is seen in `r` was a write to `r`. -/
theorem State.eq_of_getV_setV_ne {s : State} {x r : Nibble} {b : Byte} (h : (s.setV x b).getV r ≠ s.getV r) :
    x = r := by
  by_contra hx
  exact h (State.getV_setV_ne s x r b (Ne.symm hx))

/-- A flag write leaves 0 or 1 in `VF`, whatever was written before it (R22). -/
theorem State.getV_setFlag_VF (s : State) (c : Bool) :
    (s.setFlag c).getV 0xF#4 = 0x00#8 ∨ (s.setFlag c).getV 0xF#4 = 0x01#8 := by
  rw [State.getV_setFlag, if_pos rfl]
  exact flagByte_zero_or_one c

/-- A block load that is seen in `VF` went up to `VF`: the block of `LD_REGS` with `x` below 15 does not reach it. -/
theorem eq_VF_of_loadRegs_ne {s : State} {x : Nibble} {bs : List Byte} (hlen : bs.length = x.toNat + 1)
    (h : (s.setRegs (loadRegs s.v 0 bs)).getV 0xF#4 ≠ s.getV 0xF#4) : x = 0xF#4 := by
  by_contra hx
  have hlt : x.toNat < 15 := by bv_omega
  have hnone : bs[(0xF#4 : Nibble).toNat]? = none :=
    List.getElem?_eq_none (by rw [hlen]; exact hlt)
  exact h (by rw [getV_loadRegs, hnone, Option.getD_none])

/-- The five ALU instructions that end in a flag write. -/
theorem LoadsRegAndFlag.mnemonic {s : State} {i : Instr} {x : Nibble} {b : Byte} {c : Bool}
    (h : LoadsRegAndFlag s i x b c) :
    ∃ x y, i = .addReg x y ∨ i = .sub x y ∨ i = .subn x y ∨ i = .shr x y ∨ i = .shl x y := by
  cases h with
  | addReg x y => exact ⟨x, y, .inl rfl⟩
  | sub x y => exact ⟨x, y, .inr (.inl rfl)⟩
  | subn x y => exact ⟨x, y, .inr (.inr (.inl rfl))⟩
  | shr x y => exact ⟨x, y, .inr (.inr (.inr (.inl rfl)))⟩
  | shl x y => exact ⟨x, y, .inr (.inr (.inr (.inr rfl)))⟩

/-- An instruction that answers by a flag write leaves 0 or 1 in `VF`. -/
theorem VF_of_answers_setFlag {u t : State} {c : Bool} (h : (.next (u.setFlag c) : Out) = .next t) :
    t.getV 0xF#4 = 0x00#8 ∨ t.getV 0xF#4 = 0x01#8 := by
  obtain rfl := Host.Outcome.next.inj h
  exact State.getV_setFlag_VF u c

/-- What changes `VF`: a fault changes no register, the flag instructions write it as their flag, and every other
writer of registers names it (R21). -/
theorem Effect.VF_writers {i : Instr} {s t : State} (hE : Effect s i t) (hne : t.getV 0xF#4 ≠ s.getV 0xF#4) :
    (∃ b, LoadsReg s i 0xF#4 b) ∨ (∃ kk, i = .rnd 0xF#4 kk) ∨ i = .ldRegs 0xF#4 ∨
      (∃ x b c, LoadsRegAndFlag s i x b c) ∨ ∃ x y n, i = .drw x y n := by
  cases hE with
  | reg h =>
    obtain rfl := State.eq_of_getV_setV_ne hne
    exact .inl ⟨_, h⟩
  | rnd x kk =>
    obtain rfl := State.eq_of_getV_setV_ne (s := s.rndTaken) hne
    exact .inr (.inl ⟨kk, rfl⟩)
  | ldRegs x =>
    obtain rfl := eq_VF_of_loadRegs_ne (Memory.length_readBytes _ _ _) hne
    exact .inr (.inr (.inl rfl))
  | regAndFlag h => exact .inr (.inr (.inr (.inl ⟨_, _, _, h⟩)))
  | drw x y n => exact .inr (.inr (.inr (.inr ⟨x, y, n, rfl⟩)))
  | _ => exact absurd rfl hne

/-- Settles O17: the six flag instructions end in a flag write, and the other writers of `VF` name it. -/
theorem onlyFlagInstructionsWriteVFUnnamed : Obligations.OnlyFlagInstructionsWriteVFUnnamed := by
  intro i s t _ h ht
  split
  · next hflag =>
    obtain ⟨x, y, hi⟩ | ⟨x, y, n, rfl⟩ := hflag
    · rcases hi with rfl | rfl | rfl | rfl | rfl <;> exact VF_of_answers_setFlag h
    · obtain ⟨_, e⟩ | ⟨_, e⟩ := execDrw_cases x y n s
      · exact VF_of_answers_setFlag (e.symm.trans h)
      · obtain rfl := Host.Outcome.next.inj (e.symm.trans h)
        exact absurd rfl (ht _)
  · next hflag =>
    intro hne
    obtain ⟨_, hr⟩ | ⟨kk, hrnd⟩ | hld | ⟨x, b, c, hr⟩ | hdrw := (effect_of_exec h).VF_writers hne
    · cases hr with
      | ldImm => exact .inl ⟨_, .inl rfl⟩
      | addImm _ kk => exact .inl ⟨kk, .inr (.inl rfl)⟩
      | mov _ y => exact .inr (.inl ⟨y, .inl rfl⟩)
      | or _ y => exact .inr (.inl ⟨y, .inr (.inl rfl)⟩)
      | and _ y => exact .inr (.inl ⟨y, .inr (.inr (.inl rfl))⟩)
      | xor _ y => exact .inr (.inl ⟨y, .inr (.inr (.inr rfl))⟩)
      | ldVxDt => exact .inr (.inr (.inl rfl))
    · exact .inl ⟨kk, .inr (.inr hrnd)⟩
    · exact .inr (.inr (.inr hld))
    · exact absurd (.inl hr.mnemonic) hflag
    · exact absurd (.inr hdrw) hflag

end Sys2Proof.Machine
end

section
/-! PROOFS. The invariant: it holds at reset, every event keeps it, and so does every step of the model
(10_state.md sections 3, 5 and 9). -/

namespace Sys2Proof.Machine

/-! ### Reset -/

/-- The default FONT written over the reset contents changes nothing, so it lists no byte (R37, R53). -/
theorem writeBytes_defaultFont (font : Vector Byte 80) (hfont : ∀ j : Nat, j < 80 → font[j]? = some (fontByte j)) :
    Memory.writeBytes [] 0 font.toList = [] := by
  have hlen : font.toList.length = 80 := Vector.length_toList
  refine Memory.ext _ _ (Memory.wf_writeBytes _ _ _ (by omega) Memory.wf_nil) Memory.wf_nil fun a => ?_
  by_cases ha : a < 80
  · have hbyte : font.toList[a] = fontByte a := by simpa [ha] using hfont a ha
    calc (Memory.writeBytes [] 0 font.toList).read a
        = (Memory.writeBytes [] 0 font.toList).read (0 + a) := by rw [Nat.zero_add]
      _ = font.toList[a] := Memory.read_writeBytes_inside _ _ _ _ Memory.wf_nil (by omega) (by omega)
      _ = Memory.read [] a := by rw [hbyte, Memory.read, Memory.resetByte, if_pos ha]
  · exact Memory.read_writeBytes_outside _ _ _ _ (by omega)

/-- Settles O24: the memory loaded with the default FONT and no image is the empty list of `State.reset`. -/
theorem resetStateIsTheEmptyImageReset : Obligations.ResetStateIsTheEmptyImageReset := by
  intro font hfont
  have hmem : loadedMemory font [] = [] := writeBytes_defaultFont font hfont
  have hlen : ([] : List Byte).length ≤ Config.maxImage := Nat.zero_le _
  rw [construct, if_pos hlen, hmem]
  rfl

/-- Settles O30: memory lists nothing, `PC` is 0x200 and no stack slot is in use. -/
theorem invariantHoldsAtReset : Obligations.InvariantHoldsAtReset :=
  ⟨Memory.wf_nil, by decide, fun _ h => absurd h (Nat.not_lt_zero _)⟩

/-- FONT and a legal image fit below 0x1000, so the memory they load is canonical (R200 to R202). -/
theorem wf_loadedMemory (font : Vector Byte 80) (image : List Byte) (h : image.length ≤ Config.maxImage) :
    (loadedMemory font image).wf = true := by
  have hlen : font.toList.length = 80 := Vector.length_toList
  have hmax : Config.progBase + image.length ≤ 0x1000 := Nat.add_le_add_left h 0x200
  exact Memory.wf_writeBytes _ _ _ hmax (Memory.wf_writeBytes _ _ _ (by omega) Memory.wf_nil)

/-! ### The invariant through the updates -/

section Updates

variable {s : State}

theorem Inv.setPc (h : Inv s) {w : Word} (hw : w.toNat ≤ 0x10FE) : Inv (s.setPc w) := by
  obtain ⟨hmem, _, hstack⟩ := h
  exact ⟨hmem, hw, hstack⟩

theorem Inv.setMem (h : Inv s) {m : Memory} (hm : m.wf = true) : Inv (s.setMem m) := by
  obtain ⟨_, hpc, hstack⟩ := h
  exact ⟨hm, hpc, hstack⟩

/-- The return address in a slot in use, the target of a `RET`, is within the bound. -/
theorem Inv.returnAddress_le (h : Inv s) {j : Nat} (hj : j < s.sp.val) : (s.stack[j]?.getD 0#16).toNat ≤ 0x10FE := by
  obtain ⟨_, _, hstack⟩ := h
  exact hstack j hj

/-- The updates of the other parts do not reach what the invariant speaks of. -/
theorem Inv.congr {t : State} (h : Inv s) (hmem : t.mem = s.mem) (hpc : t.pc = s.pc) (hstack : t.stack = s.stack)
    (hsp : t.sp = s.sp) : Inv t := by
  unfold Inv
  rw [hmem, hpc, hstack, hsp]
  exact h

/-- A push of a word within the bound keeps the invariant: the new slot holds the word, the others are kept (R109). -/
theorem Inv.push (h : Inv s) {w : Word} {t : State} (ht : s.push w = some t) (hw : w.toNat ≤ 0x10FE) : Inv t := by
  obtain ⟨hmem, hpc, hstack⟩ := h
  obtain ⟨_, hsp, hnew, hold, hframe⟩ := State.push_some s t w ht
  have hslots : ∀ j, j < t.sp.val → (t.stack[j]?.getD 0#16).toNat ≤ 0x10FE := by
    intro j hj
    by_cases hjs : j = s.sp.val
    · rw [hjs, hnew]; exact hw
    · rw [hold j hjs]; exact hstack j (by omega)
  rw [hframe]
  exact ⟨hmem, hpc, hslots⟩

/-- A pop keeps the invariant: the slots in use are among those in use before (R110). -/
theorem Inv.pop (h : Inv s) : Inv (s.setStack s.stack (spPred s.sp)) := by
  obtain ⟨hmem, hpc, hstack⟩ := h
  exact ⟨hmem, hpc, fun j hj => hstack j (Nat.lt_of_lt_of_le hj (Nat.sub_le _ _))⟩

theorem Inv.store (h : Inv s) {bs : List Byte} (hr : InRange s.i.toNat bs.length) :
    Inv (s.setMem (s.mem.writeBytes s.i.toNat bs)) := by
  obtain hnil | hfit := (inRange_iff _ _).1 hr
  · obtain rfl := List.length_eq_zero_iff.1 hnil
    exact h
  · obtain ⟨hmem, hpc, hstack⟩ := h
    exact ⟨Memory.wf_writeBytes _ _ _ hfit hmem, hpc, hstack⟩

/-- A skip adds 2, which stays within the bound when `PC` is below it by 2 (R111). -/
theorem Inv.skipIf (h : Inv s) (hpc : s.pc.toNat ≤ 0x10FC) (c : Bool) : Inv (s.skipIf c) := by
  cases c with
  | false => exact h
  | true =>
    have hadd := toNat_advance s (by omega)
    exact h.setPc (w := s.pc + 2#16) (by omega)

end Updates

/-! ### The invariant through the instructions and the events -/

theorem toNat_zextAddr_le (nnn : Addr) : (zextAddr nnn).toNat ≤ 0x10FE := by
  have := nnn.isLt
  rw [toNat_zextAddr]; omega

/-- The greatest target of `JP_V0`, 0xFFF + 0xFF, is the bound of R26. -/
theorem toNat_offsetTarget_le (nnn : Addr) (b : Byte) : (offsetTarget nnn b).toNat ≤ 0x10FE := by
  have := nnn.isLt
  have := b.isLt
  rw [toNat_offsetTarget]; omega

/-- A fetch succeeds up to 0xFFE, so `PC` after the advance is at most 0x1000 (R59, R100). -/
theorem toNat_advance_le {s : State} (hpc : s.pc.toNat ≤ 0xFFE) : s.advance.pc.toNat ≤ 0x1000 := by
  rw [State.advance_pc, toNat_advance s (by omega)]
  omega

theorem Inv.advance {s : State} (h : Inv s) (hpc : s.pc.toNat ≤ 0xFFE) : Inv s.advance :=
  h.setPc ((toNat_advance_le hpc).trans (by omega))

/-- Every instruction that is executed keeps the invariant: `PC` is then at most 0x1000, the address after the last
word of memory, so a skip and a pushed return address stay within the bound. -/
theorem Effect.inv {i : Instr} {s t : State} (hE : Effect s i t) (h : Inv s) (hpc : s.pc.toNat ≤ 0x1000) : Inv t := by
  cases hE with
  | store _ hr => exact h.store hr
  | skip => exact h.skipIf (by omega) _
  | skipOnKey =>
    have hkeys : Inv s.keysTaken := h.congr rfl rfl rfl rfl
    exact hkeys.skipIf (by rw [State.keysTaken_pc]; omega) _
  | jp nnn => exact h.setPc (toNat_zextAddr_le nnn)
  | jpV0 nnn => exact h.setPc (toNat_offsetTarget_le nnn _)
  | call nnn hroom => exact (h.push (State.push_room s s.pc hroom) (by omega)).setPc (toNat_zextAddr_le nnn)
  | ret hused =>
    exact h.pop.setPc (h.returnAddress_le (by omega))
  | _ => exact h.congr rfl rfl rfl rfl

theorem stepEvent_keeps_inv {s t : State} (h : Inv s) (ht : stepEvent s = .next t) : Inv t := by
  obtain ⟨_, e⟩ | ⟨_, _, e⟩ | ⟨_, hpc, _, e⟩ | ⟨_, hpc, i, _, e⟩ := stepEvent_cases s
  · obtain rfl := Host.Outcome.next.inj (e.symm.trans ht)
    exact h
  · obtain rfl := Host.Outcome.next.inj (e.symm.trans ht)
    exact h.congr rfl rfl rfl rfl
  · obtain rfl := Host.Outcome.next.inj (e.symm.trans ht)
    exact (h.advance hpc).congr rfl rfl rfl rfl
  · exact (effect_of_exec (e.symm.trans ht)).inv (h.advance hpc) (toNat_advance_le hpc)

theorem tick_keeps_inv {s : State} (h : Inv s) : Inv (tick s) := by
  by_cases hs : s.status = .running
  · rw [tick_running s hs]
    exact h.congr rfl rfl rfl rfl
  · rw [tick_stopped s hs]
    exact h

theorem keyPress_keeps_inv {s : State} (h : Inv s) (k : Nibble) : Inv (keyPress k s) := by
  by_cases hs : ∃ x, s.status = .awaitKey x
  · obtain ⟨x, hx⟩ := hs
    rw [keyPress_waiting k x s hx]
    exact h.congr rfl rfl rfl rfl
  · rw [keyPress_other k s fun x hx => hs ⟨x, hx⟩]
    exact h

/-- A `Reset` establishes the invariant, whatever the state before it was. -/
theorem inv_of_construct {font : Vector Byte 80} {image : List Byte} {env : Env} {t : State}
    (ht : construct font image env = some t) : Inv t := by
  unfold construct at ht
  split at ht
  · next hlen =>
    obtain rfl := Option.some.inj ht
    exact (invariantHoldsAtReset.setMem (wf_loadedMemory font image hlen)).congr rfl rfl rfl rfl
  · cases ht

theorem deliver_keeps_inv {e : Event} {s t : State} (h : Inv s) (ht : deliver e s = .next t) : Inv t := by
  cases e with
  | step => exact stepEvent_keeps_inv h ht
  | tick =>
    obtain rfl := Host.Outcome.next.inj ht
    exact tick_keeps_inv h
  | keyPress k =>
    obtain rfl := Host.Outcome.next.inj ht
    exact keyPress_keeps_inv h k
  | reset font image =>
    cases hc : construct font image s.env with
    | some u =>
      simp only [deliver, hc, Host.Outcome.next.injEq] at ht
      subst ht
      exact inv_of_construct hc
    | none => simp [deliver, hc] at ht

/-- Settles O31: a step delivers the next listed event, or is a `Step`, and each keeps the invariant. -/
theorem everyStepKeepsTheInvariant : Obligations.EveryStepKeepsTheInvariant := by
  intro s t h ht
  cases hsch : s.env.schedule with
  | cons e rest =>
    rw [step_listed s e rest hsch] at ht
    have hrest : Inv (s.setEnv { s.env with schedule := rest }) := h.congr rfl rfl rfl rfl
    exact deliver_keeps_inv hrest ht
  | nil =>
    rw [step_unlisted s hsch] at ht
    by_cases hs : ∃ f, s.status = .faulted f
    · obtain ⟨f, hf⟩ := hs
      rw [stepUnlisted_faulted s f hf] at ht
      cases ht
    · rw [stepUnlisted_live s fun f hf => hs ⟨f, hf⟩] at ht
      exact stepEvent_keeps_inv h ht

end Sys2Proof.Machine
end

section
/-! PROOFS. Memory as the machine reaches it (20_memory.md): the checked reads and the canonical form, the fetch and
the delivery of events, and which instructions read or write memory at all. -/

namespace Sys2Proof.Machine

/-! ### The accesses and the canonical form (R54, R55, R60) -/

/-- The two-byte value of R56: the byte at the lower address weighs 256. -/
theorem toNat_append_bytes (hi lo : Byte) : (hi ++ lo : Word).toNat = 256 * hi.toNat + lo.toNat := by
  rw [BitVec.toNat_append, ← Nat.shiftLeft_add_eq_or_of_lt lo.isLt, Nat.shiftLeft_eq, Nat.mul_comm]

/-- Settles O26: the range checks of the one-byte and the two-byte read, which is the fetch. -/
theorem memReadChecksItsRange : Obligations.MemReadChecksItsRange := by
  intro m addr
  refine ⟨fun h => ?_, fun h => ?_, fun h => ?_, fun h => ?_, fun s => rfl⟩
  · exact (readChecked_error m addr 1 _).2 ⟨by unfold InRange; omega, rfl⟩
  · exact (memRead2_error m addr _).2 ⟨by omega, rfl⟩
  · exact (readChecked_ok m addr 1 _).2 ⟨.inr h, rfl⟩
  · exact ⟨_, (memRead2_ok m addr _).2 ⟨by omega, rfl⟩, toNat_append_bytes _ _⟩

/-- Settles O27: what a write of one byte does to every read, and that it keeps the canonical form. -/
theorem memoryReadsBackWhatWasWritten : Obligations.MemoryReadsBackWhatWasWritten := fun m a b hm ha =>
  ⟨Memory.wf_write m a b ha hm, Memory.read_write_same m a b hm, fun x hx => Memory.read_write_ne m a x b hx⟩

/-- Settles O28: the canonical form determines the list from its reads. -/
theorem equalMemoriesAreEqualData : Obligations.EqualMemoriesAreEqualData := Memory.ext

/-! ### The delivery of events and the fetch (R59, R62) -/

theorem deliver_reset_some {font : Vector Byte 80} {image : List Byte} {s t : State}
    (h : construct font image s.env = some t) : deliver (.reset font image) s = .next t := by
  simp only [deliver, h]

theorem deliver_reset_none {font : Vector Byte 80} {image : List Byte} {s : State}
    (h : construct font image s.env = none) :
    deliver (.reset font image) s = .refused (.illegalReset image.length) := by
  simp only [deliver, h]

/-- With no event listed, a machine that is not `FAULTED` takes a `Step`. -/
theorem step_unlisted_live {s : State} (h : s.env.schedule = []) (hs : NotFaulted s) : step s = stepEvent s :=
  (step_unlisted s h).trans (stepUnlisted_live s hs)

theorem notFaulted_of_running {s : State} (h : s.status = .running) : NotFaulted s := by
  intro f hf
  cases h.symm.trans hf

/-- Settles O19: a listed event is delivered, and with none listed the step is `Step` or the fault. -/
theorem listedEventsHappenInOrder : Obligations.ListedEventsHappenInOrder :=
  ⟨fun s rest h => step_listed s .tick rest h,
    fun s k rest h => step_listed s (.keyPress k) rest h,
    fun s rest h => step_listed s .step rest h,
    fun s _ font image rest h hc => (step_listed s (.reset font image) rest h).trans (deliver_reset_some hc),
    fun s font image rest h hc => (step_listed s (.reset font image) rest h).trans (deliver_reset_none hc),
    fun _ h hs => step_unlisted_live h hs,
    fun s f h hf => (step_unlisted s h).trans (stepUnlisted_faulted s f hf)⟩

/-- Settles O7: the `Step` raises the fault of the fetch, and both ways to a `Step` come to it. -/
theorem fetchBeyondMemoryFaults : Obligations.FetchBeyondMemoryFaults := by
  intro s hs hpc
  refine ⟨stepEvent_fetch_fault s hs hpc, fun h => ?_, fun rest h => ?_⟩
  · exact (step_unlisted_live h (notFaulted_of_running hs)).trans (stepEvent_fetch_fault s hs hpc)
  · exact (step_listed s .step rest h).trans (stepEvent_fetch_fault (s.setEnv _) hs hpc)

/-! ### The writers of memory (R61) -/

/-- A byte of memory that reads different after an instruction is one of those a store instruction wrote. -/
theorem Effect.mem_writers {i : Instr} {s t : State} {a : Nat} (h : Effect s i t)
    (hne : t.mem.read a ≠ s.mem.read a) :
    ∃ bs, Stores s i bs ∧ s.i.toNat ≤ a ∧ a < s.i.toNat + bs.length := by
  cases h with
  | @store _ bs hst =>
    have hin : ¬ (a < s.i.toNat ∨ s.i.toNat + bs.length ≤ a) := fun hout =>
      hne (Memory.read_writeBytes_outside bs s.mem s.i.toNat a hout)
    exact ⟨bs, hst, by omega, by omega⟩
  | _ => exact absurd rfl hne

/-! ### The readers of memory (R61) -/

/-- Whenever `o` answers a next state, `o'` answers one that agrees with it in everything but memory. -/
def AgreeOffMemory (o o' : Out) : Prop := ∀ t, o = .next t → ∃ u, o' = .next u ∧ u.setMem t.mem = t

theorem AgreeOffMemory.next {t u : State} (h : u.setMem t.mem = t) : AgreeOffMemory (.next t) (.next u) := by
  intro t' ht
  obtain rfl := Host.Outcome.next.inj ht
  exact ⟨u, rfl, h⟩

/-- Two outcomes that branch on the same condition agree when they agree in each branch. -/
theorem AgreeOffMemory.of_cases {P Q : Prop} {o o' a a' b b' : Out} (hPQ : P → ¬ Q)
    (h : P ∧ o = a ∨ Q ∧ o = b) (h' : P ∧ o' = a' ∨ Q ∧ o' = b') (ha : AgreeOffMemory a a')
    (hb : AgreeOffMemory b b') : AgreeOffMemory o o' := by
  obtain ⟨hP, rfl⟩ | ⟨hQ, rfl⟩ := h <;> obtain ⟨hP', rfl⟩ | ⟨hQ', rfl⟩ := h'
  · exact ha
  · exact absurd hQ' (hPQ hP)
  · exact absurd hQ (hPQ hP')
  · exact hb

theorem State.push_setMem (s : State) (m : Memory) (w : Word) :
    (s.setMem m).push w = (s.push w).map (·.setMem m) := by
  by_cases h : s.sp.val < 16
  · rw [State.push_room s w h, State.push_room (s.setMem m) w h]; rfl
  · have hfull : s.sp.val = 16 := by have := s.sp.isLt; omega
    rw [State.push_full s w hfull, State.push_full (s.setMem m) w hfull]; rfl

/-- An instruction other than DRW and LD_REGS does not see memory: neither the branch it takes nor what it writes
outside memory depends on the bytes there. -/
theorem exec_agreeOffMemory {i : Instr} (hdrw : ∀ x y n, i ≠ .drw x y n) (hld : ∀ x, i ≠ .ldRegs x) (s : State)
    (m : Memory) : AgreeOffMemory (exec i s) (exec i (s.setMem m)) := by
  cases i with
  | drw x y n => exact absurd rfl (hdrw x y n)
  | ldRegs x => exact absurd rfl (hld x)
  | ret =>
    exact .of_cases not_not_intro (execRet_cases s) (execRet_cases (s.setMem m)) (.next rfl) (.next rfl)
  | call nnn =>
    simp only [exec, execCall, State.setMem_pc, State.push_setMem]
    cases s.push s.pc with
    | none => exact .next rfl
    | some u => exact .next rfl
  | addI x =>
    exact .of_cases Nat.not_lt.2 (execAddI_cases x s) (execAddI_cases x (s.setMem m)) (.next rfl) (.next rfl)
  | ldB x =>
    exact .of_cases not_not_intro (execLdB_cases x s) (execLdB_cases x (s.setMem m)) (.next rfl) (.next rfl)
  | stRegs x =>
    exact .of_cases not_not_intro (execStRegs_cases x s) (execStRegs_cases x (s.setMem m)) (.next rfl) (.next rfl)
  | _ => exact .next rfl

/-- The two-byte read depends on its two bytes alone. -/
theorem memRead2_congr {m m' : Memory} {a : Nat} (h : m.read a = m'.read a) (h' : m.read (a + 1) = m'.read (a + 1)) :
    memRead2 m a = memRead2 m' a := by
  simp only [memRead2, h, h']

theorem tick_mem (s : State) : (tick s).mem = s.mem := by
  by_cases hs : s.status = .running
  · rw [tick_running s hs]; rfl
  · rw [tick_stopped s hs]

theorem keyPress_mem (s : State) (k : Nibble) : (keyPress k s).mem = s.mem := by
  by_cases hs : ∃ x, s.status = .awaitKey x
  · obtain ⟨x, hx⟩ := hs
    rw [keyPress_waiting k x s hx]; rfl
  · rw [keyPress_other k s fun x hx => hs ⟨x, hx⟩]

/-- Settles O16: the stores are the only writers, and the other clauses are the readers' independence lemmas. -/
theorem onlyFourInstructionsReachMemory : Obligations.OnlyFourInstructionsReachMemory := by
  refine ⟨fun i s t a h hne => ?_, fun i s t m hdrw hld h => exec_agreeOffMemory hdrw hld s m t h,
    fun s m h h' => memRead2_congr h h', tick_mem, keyPress_mem⟩
  obtain ⟨bs, hst, hlo, hhi⟩ := (effect_of_exec h).mem_writers hne
  cases hst with
  | ldB x => exact .inl ⟨x, rfl, hlo, hhi⟩
  | stRegs x => exact .inr ⟨x, rfl, hlo, by rwa [State.length_regBlock] at hhi⟩

end Sys2Proof.Machine
end

section
/-! PROOFS. The decode, the encoder and the opcode map (30_encoding.md sections 2 and 3): the two levels of the decode
inverted once, and every row of R75 shown to decode to what it builds. -/

namespace Sys2Proof

open Machine (EncodedBy)

section Levels

variable {w : Word} {i : Instr} {op : Nibble} {nnn : Addr}

/-! ### A word whose family is known is the encoding of its other fields (R72) -/

theorem encNNN_of_fieldOp (h : fieldOp w = op) : encNNN op (fieldNNN w) = w := h ▸ encNNN_fields w

theorem encXKK_of_fieldOp (h : fieldOp w = op) : encXKK op (fieldX w) (fieldKK w) = w := h ▸ encXKK_fields w

theorem encXYN_of_fieldOp (h : fieldOp w = op) : encXYN op (fieldX w) (fieldY w) (fieldN w) = w := h ▸ encXYN_fields w

/-- A word is `encNNN` of two fields exactly when it has these fields. -/
theorem eq_encNNN_iff : w = encNNN op nnn ↔ fieldOp w = op ∧ fieldNNN w = nnn := by
  constructor
  · rintro rfl
    exact ⟨fieldOp_encNNN op nnn, fieldNNN_encNNN op nnn⟩
  · rintro ⟨hop, rfl⟩
    exact (encNNN_of_fieldOp hop).symm

theorem and_opMask_of_fieldOp (h : fieldOp w = op) : w &&& 0xF000#16 = encNNN op 0#12 :=
  (congrArg (· &&& 0xF000#16) (encNNN_of_fieldOp h).symm).trans (encNNN_mask op _)

/-- Clearing the low nibble of a word clears its field `n` and keeps the other fields. -/
theorem and_clearLow_of_fieldOp (h : fieldOp w = op) :
    w &&& 0xFFF0#16 = encXYN op (fieldX w) (fieldY w) 0x0#4 := by
  conv_lhs => rw [← encXYN_of_fieldOp h]
  apply BitVec.eq_of_getLsbD_eq; intro j hj
  simp only [BitVec.getLsbD_and, getLsbD_encXYN]
  interval_cases j <;> simp

/-- Family 0x0 is the words up to 0x0FFF (R76). -/
theorem fieldOp_eq_zero_iff : fieldOp w = 0x0#4 ↔ w.toNat ≤ 0x0FFF := by
  have hw := w.isLt
  have hop : (fieldOp w).toNat = w.toNat / 4096 := by
    simp only [fieldOp, BitVec.extractLsb'_toNat, Nat.shiftRight_eq_div_pow]
    omega
  rw [← BitVec.toNat_inj, hop, BitVec.toNat_ofNat]
  omega

/-! ### The first level of the decode (R74, R80) -/

theorem decodeWord_family0 (h : fieldOp w = 0x0#4) : decodeWord w = decodeFamily0 w := by simp [decodeWord, h]

theorem decodeWord_family8 (h : fieldOp w = 0x8#4) : decodeWord w = decodeFamily8 w := by simp [decodeWord, h]

theorem decodeWord_familyE (h : fieldOp w = 0xE#4) : decodeWord w = decodeFamilyE w := by simp [decodeWord, h]

theorem decodeWord_familyF (h : fieldOp w = 0xF#4) : decodeWord w = decodeFamilyF w := by simp [decodeWord, h]

/-- What an assembler emits for the instruction in `w`: the nibble families 0x5 and 0x9 ignore is 0 (R80). -/
def canonicalWord (w : Word) : Word :=
  if fieldOp w = 0x5#4 ∨ fieldOp w = 0x9#4 then w &&& 0xFFF0#16 else w

/-- Every word of a family without a second level decodes; the cases are by the format of the family (R72). -/
theorem decodeWord_firstLevel (h : fieldOp w ∉ [0x0#4, 0x8#4, 0xE#4, 0xF#4]) :
    ∃ i, decodeWord w = .ok i ∧ encode i = canonicalWord w := by
  have hops : ∀ op : Nibble, op ∉ [0x0#4, 0x8#4, 0xE#4, 0xF#4] →
      (op = 0x1#4 ∨ op = 0x2#4 ∨ op = 0xA#4 ∨ op = 0xB#4) ∨
        (op = 0x3#4 ∨ op = 0x4#4 ∨ op = 0x6#4 ∨ op = 0x7#4 ∨ op = 0xC#4) ∨ (op = 0x5#4 ∨ op = 0x9#4) ∨
        op = 0xD#4 := by decide
  obtain (h | h | h | h) | (h | h | h | h | h) | (h | h) | h := hops _ h
  iterate 4
    · simp [decodeWord, canonicalWord, encode, h, encNNN_of_fieldOp h]
  iterate 5
    · simp [decodeWord, canonicalWord, encode, h, encXKK_of_fieldOp h]
  iterate 2
    · simp [decodeWord, canonicalWord, encode, h, and_clearLow_of_fieldOp h]
  · simp [decodeWord, canonicalWord, encode, h, encXYN_of_fieldOp h]

/-! ### The second level (R76 to R79) -/

theorem encode_of_decodeFamily0 (hop : fieldOp w = 0x0#4) (h : decodeFamily0 w = .ok i) : encode i = w := by
  unfold decodeFamily0 at h
  split_ifs at h with h0 h1 <;> obtain rfl := Except.ok.inj h
  · exact (eq_encNNN_iff.2 ⟨hop, h0⟩).symm
  · exact (eq_encNNN_iff.2 ⟨hop, h1⟩).symm

theorem encode_of_decodeFamily8 (hop : fieldOp w = 0x8#4) (h : decodeFamily8 w = .ok i) : encode i = w := by
  rw [← encXYN_of_fieldOp hop]
  unfold decodeFamily8 at h
  split_ifs at h with hn hn hn hn hn hn hn hn hn
  all_goals
    obtain rfl := Except.ok.inj h
    rw [hn]
    rfl

theorem encode_of_decodeFamilyE (hop : fieldOp w = 0xE#4) (h : decodeFamilyE w = .ok i) : encode i = w := by
  rw [← encXKK_of_fieldOp hop]
  unfold decodeFamilyE at h
  split_ifs at h with hkk hkk
  all_goals
    obtain rfl := Except.ok.inj h
    rw [hkk]
    rfl

theorem encode_of_decodeFamilyF (hop : fieldOp w = 0xF#4) (h : decodeFamilyF w = .ok i) : encode i = w := by
  rw [← encXKK_of_fieldOp hop]
  unfold decodeFamilyF at h
  split_ifs at h with hkk hkk hkk hkk hkk hkk hkk hkk hkk
  all_goals
    obtain rfl := Except.ok.inj h
    rw [hkk]
    rfl

theorem decodeFamily0_rejects_iff :
    (∃ e, decodeFamily0 w = .error e) ↔ fieldNNN w ≠ 0x0E0#12 ∧ fieldNNN w ≠ 0x0EE#12 := by
  unfold decodeFamily0
  split_ifs with h0 h1 <;> simp [*]

theorem decodeFamily8_rejects_iff :
    (∃ e, decodeFamily8 w = .error e) ↔ fieldN w ∈ [0x8#4, 0x9#4, 0xA#4, 0xB#4, 0xC#4, 0xD#4, 0xF#4] := by
  have hcompl : ∀ n : Nibble, n ∉ [0x0#4, 0x1#4, 0x2#4, 0x3#4, 0x4#4, 0x5#4, 0x6#4, 0x7#4, 0xE#4] →
      n ∈ [0x8#4, 0x9#4, 0xA#4, 0xB#4, 0xC#4, 0xD#4, 0xF#4] := by decide
  unfold decodeFamily8
  split_ifs with h0 h1 h2 h3 h4 h5 h6 h7 hE
  case neg => exact iff_of_true ⟨_, rfl⟩ (hcompl _ (by simp [*]))
  all_goals simp [*]

theorem decodeFamilyE_rejects_iff :
    (∃ e, decodeFamilyE w = .error e) ↔ fieldKK w ∉ [0x9E#8, 0xA1#8] := by
  unfold decodeFamilyE
  split_ifs with h0 h1 <;> simp [*]

theorem decodeFamilyF_rejects_iff :
    (∃ e, decodeFamilyF w = .error e) ↔
      fieldKK w ∉ [0x07#8, 0x0A#8, 0x15#8, 0x18#8, 0x1E#8, 0x29#8, 0x33#8, 0x55#8, 0x65#8] := by
  unfold decodeFamilyF
  split_ifs with h0 h1 h2 h3 h4 h5 h6 h7 h8 <;> simp [*]

/-! ### Both levels -/

/-- A word is of a family with a second level, which then decides, or every word of its family decodes. -/
theorem decodeWord_cases (w : Word) :
    (fieldOp w = 0x0#4 ∧ decodeWord w = decodeFamily0 w) ∨ (fieldOp w = 0x8#4 ∧ decodeWord w = decodeFamily8 w) ∨
    (fieldOp w = 0xE#4 ∧ decodeWord w = decodeFamilyE w) ∨ (fieldOp w = 0xF#4 ∧ decodeWord w = decodeFamilyF w) ∨
    (fieldOp w ∉ [0x0#4, 0x8#4, 0xE#4, 0xF#4] ∧ ∃ i, decodeWord w = .ok i ∧ encode i = canonicalWord w) := by
  by_cases h0 : fieldOp w = 0x0#4
  · exact .inl ⟨h0, decodeWord_family0 h0⟩
  by_cases h8 : fieldOp w = 0x8#4
  · exact .inr (.inl ⟨h8, decodeWord_family8 h8⟩)
  by_cases hE : fieldOp w = 0xE#4
  · exact .inr (.inr (.inl ⟨hE, decodeWord_familyE hE⟩))
  by_cases hF : fieldOp w = 0xF#4
  · exact .inr (.inr (.inr (.inl ⟨hF, decodeWord_familyF hF⟩)))
  have hfirst : fieldOp w ∉ [0x0#4, 0x8#4, 0xE#4, 0xF#4] := by simp [h0, h8, hE, hF]
  exact .inr (.inr (.inr (.inr ⟨hfirst, decodeWord_firstLevel hfirst⟩)))

end Levels

/-- Settles O3: the first level encodes back to the canonical word, the second to the word itself. -/
theorem legalWordsEncodeBack : Obligations.LegalWordsEncodeBack := by
  intro w i h
  obtain ⟨hop, e⟩ | ⟨hop, e⟩ | ⟨hop, e⟩ | ⟨hop, e⟩ | ⟨_, j, hj, hcan⟩ := decodeWord_cases w
  · rw [if_neg (by rw [hop]; decide)]
    exact encode_of_decodeFamily0 hop (e.symm.trans h)
  · rw [if_neg (by rw [hop]; decide)]
    exact encode_of_decodeFamily8 hop (e.symm.trans h)
  · rw [if_neg (by rw [hop]; decide)]
    exact encode_of_decodeFamilyE hop (e.symm.trans h)
  · rw [if_neg (by rw [hop]; decide)]
    exact encode_of_decodeFamilyF hop (e.symm.trans h)
  · obtain rfl := Except.ok.inj (hj.symm.trans h)
    exact hcan

/-- Settles O5: what each of the four families with a second level rejects; the others reject nothing. -/
theorem illegalWordsAreExactlyThese : Obligations.IllegalWordsAreExactlyThese := by
  intro w
  rw [← fieldOp_eq_zero_iff]
  obtain ⟨hop, e⟩ | ⟨hop, e⟩ | ⟨hop, e⟩ | ⟨hop, e⟩ | ⟨hop, i, hi, _⟩ := decodeWord_cases w
  · have hcls : w = 0x00E0#16 ↔ fieldNNN w = 0x0E0#12 := (eq_encNNN_iff (nnn := 0x0E0#12)).trans (and_iff_right hop)
    have hret : w = 0x00EE#16 ↔ fieldNNN w = 0x0EE#12 := (eq_encNNN_iff (nnn := 0x0EE#12)).trans (and_iff_right hop)
    simp [e, hop, decodeFamily0_rejects_iff, hcls, hret]
  · simp only [e, hop, decodeFamily8_rejects_iff]
    simp
  · simp only [e, hop, decodeFamilyE_rejects_iff]
    simp
  · simp only [e, hop, decodeFamilyF_rejects_iff]
    simp
  · simp at hop
    simp [hi, hop]

/-! ### The opcode map (R75): every row decodes to what it builds, and every instruction has its row -/

theorem encodedBy_of_mem_opcodeRowsA : ∀ r ∈ opcodeRowsA, EncodedBy r.mask r.pat r.build := by
  simp only [opcodeRowsA, List.forall_mem_cons]
  refine ⟨encodedBy_word _ _ rfl, encodedBy_word _ _ rfl, encodedBy_op 0x1#4 _ _ rfl ?_, encodedBy_op 0x2#4 _ _ rfl ?_,
    encodedBy_op 0x3#4 _ _ rfl ?_, encodedBy_op 0x4#4 _ _ rfl ?_, encodedBy_op 0x5#4 _ _ rfl ?_,
    encodedBy_op 0x6#4 _ _ rfl ?_, encodedBy_op 0x7#4 _ _ rfl ?_, List.forall_mem_nil _⟩
  all_goals
    intro w hop
    simp [decodeWord, hop]

theorem encodedBy_of_mem_opcodeRowsB : ∀ r ∈ opcodeRowsB, EncodedBy r.mask r.pat r.build := by
  simp only [opcodeRowsB, List.forall_mem_cons]
  refine ⟨encodedBy_n 0x8#4 0x0#4 _ _ rfl rfl ?_, encodedBy_n 0x8#4 0x1#4 _ _ rfl rfl ?_,
    encodedBy_n 0x8#4 0x2#4 _ _ rfl rfl ?_, encodedBy_n 0x8#4 0x3#4 _ _ rfl rfl ?_,
    encodedBy_n 0x8#4 0x4#4 _ _ rfl rfl ?_, encodedBy_n 0x8#4 0x5#4 _ _ rfl rfl ?_,
    encodedBy_n 0x8#4 0x6#4 _ _ rfl rfl ?_, encodedBy_n 0x8#4 0x7#4 _ _ rfl rfl ?_,
    encodedBy_n 0x8#4 0xE#4 _ _ rfl rfl ?_, List.forall_mem_nil _⟩
  all_goals
    intro w hop hn
    simp [decodeWord_family8 hop, decodeFamily8, hn]

theorem encodedBy_of_mem_opcodeRowsC : ∀ r ∈ opcodeRowsC, EncodedBy r.mask r.pat r.build := by
  simp only [opcodeRowsC, List.forall_mem_cons]
  refine ⟨encodedBy_op 0x9#4 _ _ rfl ?_, encodedBy_op 0xA#4 _ _ rfl ?_, encodedBy_op 0xB#4 _ _ rfl ?_,
    encodedBy_op 0xC#4 _ _ rfl ?_, encodedBy_op 0xD#4 _ _ rfl ?_, encodedBy_kk 0xE#4 0x9E#8 _ _ rfl rfl ?_,
    encodedBy_kk 0xE#4 0xA1#8 _ _ rfl rfl ?_, List.forall_mem_nil _⟩
  iterate 5
    · intro w hop
      simp [decodeWord, hop]
  all_goals
    intro w hop hkk
    simp [decodeWord_familyE hop, decodeFamilyE, hkk]

theorem encodedBy_of_mem_opcodeRowsD : ∀ r ∈ opcodeRowsD, EncodedBy r.mask r.pat r.build := by
  simp only [opcodeRowsD, List.forall_mem_cons]
  refine ⟨encodedBy_kk 0xF#4 0x07#8 _ _ rfl rfl ?_, encodedBy_kk 0xF#4 0x0A#8 _ _ rfl rfl ?_,
    encodedBy_kk 0xF#4 0x15#8 _ _ rfl rfl ?_, encodedBy_kk 0xF#4 0x18#8 _ _ rfl rfl ?_,
    encodedBy_kk 0xF#4 0x1E#8 _ _ rfl rfl ?_, encodedBy_kk 0xF#4 0x29#8 _ _ rfl rfl ?_,
    encodedBy_kk 0xF#4 0x33#8 _ _ rfl rfl ?_, encodedBy_kk 0xF#4 0x55#8 _ _ rfl rfl ?_,
    encodedBy_kk 0xF#4 0x65#8 _ _ rfl rfl ?_, List.forall_mem_nil _⟩
  all_goals
    intro w hop hkk
    simp [decodeWord_familyF hop, decodeFamilyF, hkk]

/-- The decode agrees with every row of the opcode map (R75). -/
theorem encodedBy_of_mem_opcodeTable : ∀ r ∈ opcodeTable, EncodedBy r.mask r.pat r.build := by
  simp only [opcodeTable, List.forall_mem_append]
  exact ⟨encodedBy_of_mem_opcodeRowsA, encodedBy_of_mem_opcodeRowsB, encodedBy_of_mem_opcodeRowsC,
    encodedBy_of_mem_opcodeRowsD⟩

section Rows

variable {w : Word} {i : Instr}

theorem decodeWord_of_selects {r : OpcodeRow} (hr : r ∈ opcodeTable) (h : r.selects w = true) :
    decodeWord w = .ok (r.build w) :=
  encodedBy_of_mem_opcodeTable r hr w (of_decide_eq_true h)

/-- The lemma of each constructor, for every instruction. -/
theorem encodingRow : ∀ i : Instr, Laws.EncodingRow.Statement i
  | .cls => Laws.EncodingRow.cls
  | .ret => Laws.EncodingRow.ret
  | .jp nnn => Laws.EncodingRow.jp nnn
  | .call nnn => Laws.EncodingRow.call nnn
  | .seImm x kk => Laws.EncodingRow.seImm x kk
  | .sneImm x kk => Laws.EncodingRow.sneImm x kk
  | .seReg x y => Laws.EncodingRow.seReg x y
  | .ldImm x kk => Laws.EncodingRow.ldImm x kk
  | .addImm x kk => Laws.EncodingRow.addImm x kk
  | .mov x y => Laws.EncodingRow.mov x y
  | .or x y => Laws.EncodingRow.or x y
  | .and x y => Laws.EncodingRow.and x y
  | .xor x y => Laws.EncodingRow.xor x y
  | .addReg x y => Laws.EncodingRow.addReg x y
  | .sub x y => Laws.EncodingRow.sub x y
  | .shr x y => Laws.EncodingRow.shr x y
  | .subn x y => Laws.EncodingRow.subn x y
  | .shl x y => Laws.EncodingRow.shl x y
  | .sneReg x y => Laws.EncodingRow.sneReg x y
  | .ldI nnn => Laws.EncodingRow.ldI nnn
  | .jpV0 nnn => Laws.EncodingRow.jpV0 nnn
  | .rnd x kk => Laws.EncodingRow.rnd x kk
  | .drw x y n => Laws.EncodingRow.drw x y n
  | .skp x => Laws.EncodingRow.skp x
  | .sknp x => Laws.EncodingRow.sknp x
  | .ldVxDt x => Laws.EncodingRow.ldVxDt x
  | .ldVxK x => Laws.EncodingRow.ldVxK x
  | .ldDtVx x => Laws.EncodingRow.ldDtVx x
  | .ldStVx x => Laws.EncodingRow.ldStVx x
  | .addI x => Laws.EncodingRow.addI x
  | .ldF x => Laws.EncodingRow.ldF x
  | .ldB x => Laws.EncodingRow.ldB x
  | .stRegs x => Laws.EncodingRow.stRegs x
  | .ldRegs x => Laws.EncodingRow.ldRegs x

theorem decodeWord_encode (i : Instr) : decodeWord (encode i) = .ok i := by
  obtain ⟨_, r, hr, hsel, hbuild⟩ := encodingRow i
  exact (decodeWord_of_selects hr hsel).trans (congrArg Except.ok hbuild)

/-- A word that decodes selects a row: the row of its instruction, which in the families 0x5 and 0x9 does not look
at the low nibble. -/
theorem exists_row_of_decodeWord (h : decodeWord w = .ok i) : ∃ r ∈ opcodeTable, r.selects w = true := by
  by_cases h5 : fieldOp w = 0x5#4
  · exact ⟨opcodeTable[6], List.getElem_mem _, decide_eq_true (and_opMask_of_fieldOp h5)⟩
  by_cases h9 : fieldOp w = 0x9#4
  · exact ⟨opcodeTable[18], List.getElem_mem _, decide_eq_true (and_opMask_of_fieldOp h9)⟩
  obtain ⟨_, r, hr, hsel, _⟩ := encodingRow i
  have hw : encode i = w := (legalWordsEncodeBack w i h).trans (if_neg (not_or.2 ⟨h5, h9⟩))
  exact ⟨r, hr, hw ▸ hsel⟩

theorem decodeWord_eq_ok_iff :
    decodeWord w = .ok i ↔ ∃ r ∈ opcodeTable, r.selects w = true ∧ r.build w = i := by
  constructor
  · intro h
    obtain ⟨r, hr, hsel⟩ := exists_row_of_decodeWord h
    exact ⟨r, hr, hsel, Except.ok.inj ((decodeWord_of_selects hr hsel).symm.trans h)⟩
  · rintro ⟨r, hr, hsel, rfl⟩
    exact decodeWord_of_selects hr hsel

end Rows

theorem opcodeTable_pairwise_disjoint : opcodeTable.Pairwise (fun r q => r.disjoint q = true) := by decide

/-- Settles O2: the encoded word selects the row of its instruction, and the rows decode to what they build. -/
theorem decodeOfEncodeIsIdentity : Obligations.DecodeOfEncodeIsIdentity := by
  intro i rest _
  have hword : decodeWord (wordOfBytes (highByte (encode i)) (lowByte (encode i))) = .ok i :=
    (congrArg decodeWord (wordOfBytes_high_low _)).trans (decodeWord_encode i)
  simp only [encodeBytes, List.cons_append, List.nil_append, decodeBytes, hword]

/-- Settles O4: the decode answers exactly for the words that select a row. -/
theorem opcodeMapDecidesTheDecode : Obligations.OpcodeMapDecidesTheDecode := by
  refine ⟨rfl, opcodeTable_pairwise_disjoint, fun w i => decodeWord_eq_ok_iff, fun w hnone => ?_⟩
  cases hd : decodeWord w with
  | error e => exact ⟨e, rfl⟩
  | ok i =>
    obtain ⟨r, hr, hsel⟩ := exists_row_of_decodeWord hd
    exact absurd hsel (by simp [hnone r hr])

/-- Settles O11: the answer of `exec` with its effect forgotten. -/
theorem everyInstructionAnswersNext : Obligations.EveryInstructionAnswersNext := by
  intro i s
  obtain ⟨t, ht, _⟩ := Machine.exec_answers i s
  exact ⟨t, ht⟩

/-- Settles O1, by running the decode on each of the written words. -/
theorem decodeSampleWords : Obligations.DecodeSampleWords :=
  ⟨rfl, rfl, rfl, rfl, rfl, rfl, rfl, rfl, rfl, rfl, rfl, rfl, rfl, rfl, rfl, rfl, rfl, rfl, rfl, rfl, rfl⟩

end Sys2Proof
end

section
/-! PROOFS. Frames, built up update by update, and the call stack: one push, one pop, and the words that lists of
pushes leave for as many pops (40_control_flow.md R109, R110). -/

namespace Sys2Proof.Machine

/-! ### Frames -/

section Frames

variable {regs : Nibble → Prop} {what : Touched} {s t : State}

theorem ChangesOnly.refl (regs : Nibble → Prop) (what : Touched) (s : State) : ChangesOnly regs what s s :=
  ⟨fun _ _ => rfl, fun _ => rfl, fun _ => rfl, fun _ => rfl, fun _ => rfl, fun _ => ⟨rfl, rfl⟩, fun _ _ => rfl,
    fun _ => rfl, fun _ => rfl, fun _ => rfl⟩

theorem ChangesOnly.setPc (h : ChangesOnly regs what s t) (w : Word) :
    ChangesOnly regs { what with pc := true } s (t.setPc w) := by
  obtain ⟨hv, hi, _, hdt, hst, hstack, hmem, hfb, hstatus, henv⟩ := h
  exact ⟨hv, hi, nofun, hdt, hst, hstack, hmem, hfb, hstatus, henv⟩

theorem ChangesOnly.setStack (h : ChangesOnly regs what s t) (k : Vector Word 16) (n : Fin 17) :
    ChangesOnly regs { what with stack := true } s (t.setStack k n) := by
  obtain ⟨hv, hi, hpc, hdt, hst, _, hmem, hfb, hstatus, henv⟩ := h
  exact ⟨hv, hi, hpc, hdt, hst, nofun, hmem, hfb, hstatus, henv⟩

theorem ChangesOnly.skipIf (h : ChangesOnly regs what s t) (c : Bool) :
    ChangesOnly regs { what with pc := true } s (t.skipIf c) := h.setPc _

/-- Push writes a slot and the count, nothing else (R109). -/
theorem ChangesOnly.of_push {w : Word} (h : s.push w = some t) : ChangesOnly noReg { stack := true } s t := by
  obtain ⟨_, _, _, _, hframe⟩ := State.push_some s t w h
  rw [hframe]
  exact (ChangesOnly.refl noReg {} s).setStack _ _

end Frames

/-! ### One push and one pop -/

theorem State.exists_push {s : State} (w : Word) (h : s.sp.val < 16) : ∃ t, s.push w = some t :=
  ⟨_, State.push_room s w h⟩

/-- The word that Pop gives stands in a slot of the stack: whatever the count, the slot it reads exists. -/
theorem State.lastSlot_eq_some (s : State) :
    s.stack[s.sp.val - 1]? = some (s.stack[s.sp.val - 1]?.getD 0#16) := by
  have hlt : s.sp.val - 1 < 16 := by have := s.sp.isLt; omega
  simp [hlt]

theorem exec_call_full (nnn : Addr) {s : State} (h : s.sp.val = 16) :
    exec (.call nnn) s = .next { s with status := .faulted .stackOverflow } := by
  obtain ⟨_, e⟩ | ⟨hroom, _⟩ := execCall_cases nnn s
  · exact e
  · omega

theorem exec_ret_empty {s : State} (h : s.sp.val = 0) :
    exec .ret s = .next { s with status := .faulted .stackUnderflow } := by
  obtain ⟨_, e⟩ | ⟨hused, _⟩ := execRet_cases s
  · exact e
  · exact absurd h hused

/-- Of the two writers of `SP`, RET lowers it. -/
theorem Effect.call_of_sp_lt {i : Instr} {s t : State} (hE : Effect s i t) (hlt : s.sp.val < t.sp.val) :
    ∃ nnn, i = .call nnn := by
  cases hE with
  | call nnn => exact ⟨nnn, rfl⟩
  | ret => exact absurd hlt (Nat.not_lt.2 (Nat.sub_le _ _))
  | _ => exact absurd hlt (Nat.lt_irrefl _)

/-- Of the two writers of `SP`, CALL raises it. -/
theorem Effect.ret_of_sp_lt {i : Instr} {s t : State} (hE : Effect s i t) (hlt : t.sp.val < s.sp.val) : i = .ret := by
  cases hE with
  | ret => rfl
  | call nnn => exact absurd hlt (Nat.not_lt.2 (Nat.le_succ _))
  | _ => exact absurd hlt (Nat.lt_irrefl _)

/-! ### Lists of pushes and pops -/

/-- The entries in use from number `k` on are the words `ws`, the first pushed first. A pop leaves the slot it read
as it was, so pushing and popping does not give back the same slots; it gives back the same entries in use. -/
def HoldsFrom (k : Nat) (ws : List Word) (s : State) : Prop :=
  s.sp.val = k + ws.length ∧ ∀ j : Nat, j < ws.length → s.stack[k + j]? = ws[j]?

theorem holdsFrom_nil (s : State) : HoldsFrom s.sp.val [] s := ⟨rfl, nofun⟩

theorem HoldsFrom.push {k : Nat} {ws : List Word} {s t : State} {w : Word} (h : HoldsFrom k ws s)
    (ht : s.push w = some t) : HoldsFrom k (ws ++ [w]) t := by
  obtain ⟨hsp, hslots⟩ := h
  obtain ⟨_, hsp', hnew, hold, _⟩ := State.push_some s t w ht
  refine ⟨by rw [hsp', hsp, List.length_append]; rfl, fun j hj => ?_⟩
  by_cases hjw : j < ws.length
  · rw [hold (k + j) (by omega), hslots j hjw, List.getElem?_append_left hjw]
  · obtain rfl : j = ws.length := by simp at hj; omega
    rw [← hsp, hnew, List.getElem?_concat_length]

theorem HoldsFrom.pushAll {k : Nat} {ws vs : List Word} {s t : State} (h : HoldsFrom k ws s)
    (ht : pushAll vs s = some t) : HoldsFrom k (ws ++ vs) t := by
  induction vs generalizing ws s with
  | nil =>
    obtain rfl := Option.some.inj ht
    rwa [List.append_nil]
  | cons v vs ih =>
    cases hv : s.push v with
    | none => simp [Machine.pushAll, hv] at ht
    | some s' =>
      simp only [Machine.pushAll, hv] at ht
      rw [List.append_cons]
      exact ih (h.push hv) ht

theorem HoldsFrom.pop {k : Nat} {ws : List Word} {s : State} {w : Word} (h : HoldsFrom k (ws ++ [w]) s) :
    ∃ t, s.pop = some (w, t) ∧ HoldsFrom k ws t := by
  obtain ⟨hsp, hslots⟩ := h
  rw [List.length_append, List.length_singleton] at hsp hslots
  have hlast : s.stack[s.sp.val - 1]? = some w := by
    rw [hsp, ← List.getElem?_concat_length (l := ws) (a := w)]
    exact hslots ws.length (by omega)
  refine ⟨s.setStack s.stack (spPred s.sp), ?_, by simp [hsp], fun j hj => ?_⟩
  · rw [State.pop_used s (by omega), hlast, Option.getD_some]
  · exact (hslots j (by omega)).trans (List.getElem?_append_left hj)

/-- Popping takes the entries from the top, so the words come in reverse: the induction is from the last pushed. -/
theorem HoldsFrom.popMany {k : Nat} {ws : List Word} {s : State} (h : HoldsFrom k ws s) :
    ∃ u, popMany ws.length s = some (ws.reverse, u) ∧ u.sp.val = k := by
  induction ws using List.reverseRecOn generalizing s with
  | nil => exact ⟨s, rfl, h.1⟩
  | append_singleton ws w ih =>
    obtain ⟨t, ht, hws⟩ := h.pop
    obtain ⟨u, hu, hk⟩ := ih hws
    exact ⟨u, by simp [Machine.popMany, ht, hu], hk⟩

theorem exists_pushAll {ws : List Word} {s : State} (h : s.sp.val + ws.length ≤ 16) : ∃ t, pushAll ws s = some t := by
  induction ws generalizing s with
  | nil => exact ⟨s, rfl⟩
  | cons w ws ih =>
    rw [List.length_cons] at h
    obtain ⟨s', hs'⟩ := State.exists_push (s := s) w (by omega)
    obtain ⟨_, hsp, _⟩ := State.push_some s s' w hs'
    obtain ⟨t, ht⟩ := ih (s := s') (by omega)
    exact ⟨t, by simp only [pushAll, hs', ht]⟩

/-- Settles O29: the clauses on one push and one pop are their laws; the words that a list of pushes leaves in use
are those that as many pops take, from the last on; `SP` rises and falls by the effects of CALL and RET alone. -/
theorem stackIsLastInFirstOut : Obligations.StackIsLastInFirstOut := by
  refine ⟨fun s w h => ?_, fun s h => ?_, fun s w h => ⟨State.push_full s w h, fun nnn => exec_call_full nnn h⟩,
    fun s h => ⟨State.pop_empty s h, exec_ret_empty h⟩, fun s ws h => ?_,
    fun i s t h => ⟨(effect_of_exec h).call_of_sp_lt, (effect_of_exec h).ret_of_sp_lt⟩⟩
  · obtain ⟨t, ht⟩ := State.exists_push w h
    obtain ⟨_, hsp, hnew, hold, _⟩ := State.push_some s t w ht
    exact ⟨t, ht, hnew, hold, hsp, .of_push ht⟩
  · have hused : s.sp.val ≠ 0 := by omega
    exact ⟨_, _, State.pop_used s hused, State.lastSlot_eq_some s, rfl, rfl,
      (ChangesOnly.refl noReg {} s).setStack _ _⟩
  · obtain ⟨t, ht⟩ := exists_pushAll h
    have hws : HoldsFrom s.sp.val ws t := (holdsFrom_nil s).pushAll ht
    obtain ⟨u, hu, hsp⟩ := hws.popMany
    exact ⟨t, u, ht, hws.1, hu, Fin.ext hsp⟩

end Sys2Proof.Machine
end

section
/-! PROOFS. The cycle and the control transfers (40_control_flow.md sections 1 and 3). That a word decodes to its
instruction is its row of the opcode map, and the rows of R75 are listed in `opcodeTable` from number 0. -/

namespace Sys2Proof.Machine

/-! ### The cycle (R100) -/

theorem stepEvent_decoded {s : State} {i : Instr} (hs : s.status = .running) (hpc : s.pc.toNat ≤ 0xFFE)
    (hd : decodeWord (wordAtPc s) = .ok i) : stepEvent s = exec i s.advance :=
  (stepEvent_fetched s hs hpc).trans (dispatchWord_ok _ i _ hd)

/-- Settles O6: both ways to a `Step` come to the dispatch of the word at `PC`. -/
theorem stepRunsTheDecodedInstruction : Obligations.StepRunsTheDecodedInstruction :=
  ⟨fun _ _ h hs hpc hd => (step_unlisted_live h (notFaulted_of_running hs)).trans (stepEvent_decoded hs hpc hd),
    fun s _ rest h hs hpc hd =>
      (step_listed s .step rest h).trans (stepEvent_decoded (s := s.setEnv _) hs hpc hd)⟩

/-! ### Jumps, CALL and RET (R101 to R103, R108) -/

/-- Settles O35: RET pops and jumps to the word, or faults with an empty stack. -/
theorem returnPopsIntoPC : Obligations.ReturnPopsIntoPC := by
  refine ⟨encodedBy_of_mem_opcodeTable opcodeTable[1] (List.getElem_mem _), fun s => ⟨fun h => ?_, exec_ret_empty⟩⟩
  obtain ⟨hempty, _⟩ | ⟨hused, e⟩ := execRet_cases s
  · omega
  · exact ⟨_, e, State.lastSlot_eq_some s, rfl, rfl, ((ChangesOnly.refl noReg {} s).setStack _ _).setPc _⟩

/-- Settles O36: JP is one write of `PC`. -/
theorem jumpSetsPC : Obligations.JumpSetsPC :=
  ⟨encodedBy_of_mem_opcodeTable opcodeTable[2] (List.getElem_mem _),
    fun nnn s => ⟨_, rfl, toNat_zextAddr nnn, (ChangesOnly.refl noReg {} s).setPc _⟩⟩

/-- Settles O37: CALL is a push of `PC` and a jump, or faults with a full stack. -/
theorem callPushesAndJumps : Obligations.CallPushesAndJumps := by
  refine ⟨encodedBy_of_mem_opcodeTable opcodeTable[3] (List.getElem_mem _),
    fun nnn s => ⟨fun h => ?_, exec_call_full nnn⟩⟩
  obtain ⟨hfull, _⟩ | ⟨_, t, ht, e⟩ := execCall_cases nnn s
  · omega
  · obtain ⟨_, hsp, hnew, hold, _⟩ := State.push_some s t s.pc ht
    exact ⟨_, e, toNat_zextAddr nnn, hsp, hnew, hold, (ChangesOnly.of_push ht).setPc _⟩

/-- Settles O40: JP_V0 is one write of `PC`, with a sum that 16 bits hold. -/
theorem jumpWithOffsetAddsV0 : Obligations.JumpWithOffsetAddsV0 :=
  ⟨encodedBy_of_mem_opcodeTable opcodeTable[20] (List.getElem_mem _),
    fun nnn s => ⟨_, rfl, toNat_offsetTarget nnn _, toNat_offsetTarget_le nnn _,
      (ChangesOnly.refl noReg {} s).setPc _⟩⟩

/-! ### The skips on registers (R104 to R107, R111) -/

section Skips

variable {s : State} {i : Instr} {P : Prop} [Decidable P]

theorem SkipsOn.exec_eq {c : Bool} (h : SkipsOn s i c) : exec i s = .next (s.skipIf c) := by
  cases h with
  | seImm => rfl
  | sneImm => rfl
  | seReg => rfl
  | sneReg => rfl

/-- A skip whose condition is `P`. -/
theorem SkipsOn.skips_if (h : SkipsOn s i (decide P)) :
    ∃ t, exec i s = .next t ∧ t.pc = (if P then s.pc + 2#16 else s.pc) ∧ ChangesOnly noReg { pc := true } s t :=
  ⟨_, h.exec_eq, by simp, (ChangesOnly.refl noReg {} s).skipIf _⟩

/-- A skip whose condition is that `P` fails. -/
theorem SkipsOn.skips_unless (h : SkipsOn s i (decide (¬ P))) :
    ∃ t, exec i s = .next t ∧ t.pc = (if P then s.pc else s.pc + 2#16) ∧ ChangesOnly noReg { pc := true } s t :=
  ⟨_, h.exec_eq, by simp, (ChangesOnly.refl noReg {} s).skipIf _⟩

end Skips

/-- Settles O38: SE_IMM and SNE_IMM are skips on one comparison and on its negation. -/
theorem immediateSkipsCompareARegister : Obligations.ImmediateSkipsCompareARegister :=
  ⟨encodedBy_of_mem_opcodeTable opcodeTable[4] (List.getElem_mem _),
    encodedBy_of_mem_opcodeTable opcodeTable[5] (List.getElem_mem _),
    fun x kk _ => ⟨(SkipsOn.seImm x kk).skips_if, (SkipsOn.sneImm x kk).skips_unless⟩⟩

/-- Settles O39: SE_REG and SNE_REG are skips on one comparison and on its negation. -/
theorem registerSkipsCompareTwoRegisters : Obligations.RegisterSkipsCompareTwoRegisters :=
  ⟨encodedBy_of_mem_opcodeTable opcodeTable[6] (List.getElem_mem _),
    encodedBy_of_mem_opcodeTable opcodeTable[18] (List.getElem_mem _),
    fun x y _ => ⟨(SkipsOn.seReg x y).skips_if, (SkipsOn.sneReg x y).skips_unless⟩⟩

end Sys2Proof.Machine
end

section
/-! PROOFS. The ALU instructions (41_alu.md section 2): one register write, or a register write and then
the flag. -/

namespace Sys2Proof.Machine

/-! ### Frames of the register writes and of a draw -/

section Frames

variable {regs : Nibble → Prop} {what : Touched} {s t : State} {x : Nibble}

theorem ChangesOnly.setV (h : ChangesOnly regs what s t) (hx : regs x) (b : Byte) :
    ChangesOnly regs what s (t.setV x b) := by
  obtain ⟨hv, hrest⟩ := h
  refine ⟨fun r hr => ?_, hrest⟩
  have hne : r ≠ x := fun e => hr (e ▸ hx)
  exact (State.getV_setV_ne t x r b hne).trans (hv r hr)

theorem ChangesOnly.setVFlag (h : ChangesOnly regs what s t) (hx : regs x) (hF : regs 0xF#4) (b : Byte) (c : Bool) :
    ChangesOnly regs what s (t.setVFlag x b c) := (h.setV hx b).setV hF _

theorem ChangesOnly.rndTaken (h : ChangesOnly regs what s t) :
    ChangesOnly regs { what with env := true } s t.rndTaken := by
  obtain ⟨hv, hi, hpc, hdt, hst, hstack, hmem, hfb, hstatus, _⟩ := h
  exact ⟨hv, hi, hpc, hdt, hst, hstack, hmem, hfb, hstatus, nofun⟩

end Frames

/-! ### The result and the flag, read as numbers (R120) -/

theorem State.getV_setVFlag_same (s : State) {x : Nibble} (b : Byte) (c : Bool) (hx : x ≠ 0xF#4) :
    (s.setVFlag x b c).getV x = b := by
  rw [State.getV_setVFlag, if_neg hx, if_pos rfl]

theorem toNat_flagByte (c : Bool) : (flagByte c).toNat = c.toNat := by
  cases c with
  | false => rfl
  | true => rfl

theorem State.toNat_getV_setVFlag_VF (s : State) (x : Nibble) (b : Byte) (c : Bool) :
    ((s.setVFlag x b c).getV 0xF#4).toNat = c.toNat := by
  rw [State.getV_setVFlag, if_pos rfl, toNat_flagByte]

theorem toNat_carryOf (a b : Byte) : (carryOf a b).toNat = if 256 ≤ a.toNat + b.toNat then 1 else 0 :=
  Bool.cond_decide _ _ _

theorem toNat_noBorrowOf (a b : Byte) : (noBorrowOf a b).toNat = if b.toNat ≤ a.toNat then 1 else 0 :=
  Bool.cond_decide _ _ _

theorem toNat_shrOutOf (b : Byte) : (shrOutOf b).toNat = b.toNat % 2 :=
  (Nat.toNat_testBit _ _).trans (by rw [pow_zero, Nat.div_one])

/-- Above bit 7 a byte has nothing. -/
theorem toNat_shlOutOf (b : Byte) : (shlOutOf b).toNat = b.toNat / 128 :=
  (Nat.toNat_testBit _ _).trans (Nat.mod_eq_of_lt (by have := b.isLt; omega))

/-- The wrapped difference is the remainder of the integer difference, which is never negative. -/
theorem toNat_sub_eq_emod (a b : Byte) : ((a - b).toNat : Int) = ((a.toNat : Int) - (b.toNat : Int)) % 256 := by
  have ha := a.isLt
  have hb := b.isLt
  rw [BitVec.toNat_sub]
  omega

theorem toNat_shiftLeft_one (b : Byte) : (b <<< 1).toNat = b.toNat * 2 % 256 := by
  rw [BitVec.toNat_shiftLeft, Nat.shiftLeft_eq, pow_one]

theorem toNat_ushiftRight_one (b : Byte) : (b >>> 1).toNat = b.toNat / 2 := by
  rw [BitVec.toNat_ushiftRight, Nat.shiftRight_one]

/-- The byte that input `RND` shows is the draw the environment lists next (R190). -/
theorem State.rndByte_of_draws {s : State} {d : Byte} {ds : List Byte} (h : s.env.rndDraws = d :: ds) :
    s.rndByte = d := by
  simp only [State.rndByte, h]

/-! ### One register write, and a register write before the flag

Each rule takes the claim `P` about the result as a fact about the byte that is written. -/

section Rules

variable {s : State} {i : Instr} {x : Nibble} {b : Byte} {c : Bool} {P : Byte → Prop}

theorem LoadsReg.exec_eq (h : LoadsReg s i x b) : exec i s = .next (s.setV x b) := by
  cases h with
  | ldImm => rfl
  | addImm => rfl
  | mov => rfl
  | or => rfl
  | and => rfl
  | xor => rfl
  | ldVxDt => rfl

theorem LoadsRegAndFlag.exec_eq (h : LoadsRegAndFlag s i x b c) : exec i s = .next (s.setVFlag x b c) := by
  cases h with
  | addReg => rfl
  | sub => rfl
  | subn => rfl
  | shr => rfl
  | shl => rfl

theorem LoadsReg.completes (h : LoadsReg s i x b) (hb : P b) :
    ∃ t, exec i s = .next t ∧ P (t.getV x) ∧ ChangesOnly (regIs x) {} s t :=
  ⟨_, h.exec_eq, by rwa [State.getV_setV_same], (ChangesOnly.refl (regIs x) {} s).setV rfl b⟩

/-- With `x = 15` the flag stands where the result was (R22). -/
theorem LoadsRegAndFlag.completes {m : Nat} (h : LoadsRegAndFlag s i x b c) (hb : P b) (hc : c.toNat = m) :
    ∃ t, exec i s = .next t ∧ (x ≠ 0xF#4 → P (t.getV x)) ∧ (t.getV 0xF#4).toNat = m ∧
      ChangesOnly (regOrVF x) {} s t :=
  ⟨_, h.exec_eq, fun hx => by rwa [State.getV_setVFlag_same _ _ _ hx], by rw [State.toNat_getV_setVFlag_VF, hc],
    (ChangesOnly.refl (regOrVF x) {} s).setVFlag (.inl rfl) (.inr rfl) b c⟩

end Rules

/-! ### The instructions that write no flag (R121 to R126, R132) -/

/-- Settles O41: LD_IMM is one register write. -/
theorem loadImmediateWritesTheRegister : Obligations.LoadImmediateWritesTheRegister :=
  ⟨encodedBy_of_mem_opcodeTable opcodeTable[7] (List.getElem_mem _),
    fun x kk _ => (LoadsReg.ldImm x kk).completes (P := (· = kk)) rfl⟩

/-- Settles O42: ADD_IMM is one register write, of a sum of bytes. -/
theorem addImmediateWrapsWithoutFlag : Obligations.AddImmediateWrapsWithoutFlag :=
  ⟨encodedBy_of_mem_opcodeTable opcodeTable[8] (List.getElem_mem _),
    fun x kk _ => (LoadsReg.addImm x kk).completes (P := (·.toNat = _)) (BitVec.toNat_add _ _)⟩

/-- Settles O43: MOV, OR, AND and XOR are one register write each, of a byte made bit by bit. -/
theorem moveAndLogicWriteOneRegister : Obligations.MoveAndLogicWriteOneRegister :=
  ⟨encodedBy_of_mem_opcodeTable opcodeTable[9] (List.getElem_mem _),
    encodedBy_of_mem_opcodeTable opcodeTable[10] (List.getElem_mem _),
    encodedBy_of_mem_opcodeTable opcodeTable[11] (List.getElem_mem _),
    encodedBy_of_mem_opcodeTable opcodeTable[12] (List.getElem_mem _),
    fun x y s =>
      ⟨(LoadsReg.mov x y).completes (P := (· = s.getV y)) rfl,
        (LoadsReg.or x y).completes
          (P := fun b => ∀ j, b.getLsbD j = ((s.getV x).getLsbD j || (s.getV y).getLsbD j)) fun _ => BitVec.getLsbD_or,
        (LoadsReg.and x y).completes
          (P := fun b => ∀ j, b.getLsbD j = ((s.getV x).getLsbD j && (s.getV y).getLsbD j)) fun _ => BitVec.getLsbD_and,
        (LoadsReg.xor x y).completes
          (P := fun b => ∀ j, b.getLsbD j = ((s.getV x).getLsbD j ^^ (s.getV y).getLsbD j)) fun _ => BitVec.getLsbD_xor⟩⟩

/-- Settles O47: RND takes a draw and writes one register. -/
theorem randomMasksOneDraw : Obligations.RandomMasksOneDraw := by
  refine ⟨encodedBy_of_mem_opcodeTable opcodeTable[21] (List.getElem_mem _), fun x kk s => ?_⟩
  have hx : (s.rndTaken.setV x (s.rndByte &&& kk)).getV x = s.rndByte &&& kk := State.getV_setV_same _ x _
  exact ⟨_, rfl, hx, fun d ds h => by rw [hx, State.rndByte_of_draws h], rfl,
    (ChangesOnly.refl (regIs x) {} s).rndTaken.setV rfl _⟩

/-! ### The instructions that end in a flag write (R127 to R131) -/

/-- Settles O44: the sum and then the carry, both of the old values. -/
theorem addRegistersSetsCarry : Obligations.AddRegistersSetsCarry :=
  ⟨encodedBy_of_mem_opcodeTable opcodeTable[13] (List.getElem_mem _),
    fun x y _ => (LoadsRegAndFlag.addReg x y).completes (P := (·.toNat = _)) (BitVec.toNat_add _ _) (toNat_carryOf _ _)⟩

/-- Settles O45: the difference and then NOT borrow, with the operands of SUBN those of SUB exchanged. -/
theorem subtractionsSetNotBorrow : Obligations.SubtractionsSetNotBorrow :=
  ⟨encodedBy_of_mem_opcodeTable opcodeTable[14] (List.getElem_mem _),
    encodedBy_of_mem_opcodeTable opcodeTable[16] (List.getElem_mem _),
    fun x y _ =>
      ⟨(LoadsRegAndFlag.sub x y).completes (P := fun b => (b.toNat : Int) = _) (toNat_sub_eq_emod _ _)
          (toNat_noBorrowOf _ _),
        (LoadsRegAndFlag.subn x y).completes (P := fun b => (b.toNat : Int) = _) (toNat_sub_eq_emod _ _)
          (toNat_noBorrowOf _ _)⟩⟩

/-- Settles O46: the shifted byte and then the bit shifted out, both of `V[y]`. -/
theorem shiftsTakeTheirSourceFromY : Obligations.ShiftsTakeTheirSourceFromY :=
  ⟨encodedBy_of_mem_opcodeTable opcodeTable[15] (List.getElem_mem _),
    encodedBy_of_mem_opcodeTable opcodeTable[17] (List.getElem_mem _),
    fun x y _ =>
      ⟨(LoadsRegAndFlag.shr x y).completes (P := (·.toNat = _)) (toNat_ushiftRight_one _) (toNat_shrOutOf _),
        (LoadsRegAndFlag.shl x y).completes (P := (·.toNat = _)) (toNat_shiftLeft_one _) (toNat_shlOutOf _)⟩⟩

end Sys2Proof.Machine
end

section
/-! PROOFS. The index register and memory instructions (42_index_memory.md): one write of `I`, one block of bytes
stored from `I` on, one block of registers loaded from there, and the fault of an access that leaves memory. -/

namespace Sys2Proof.Machine

/-! ### Frames of the writes of `I`, of memory and of the register file -/

section Frames

variable {regs : Nibble → Prop} {what : Touched} {s t : State}

theorem ChangesOnly.setI (h : ChangesOnly regs what s t) (w : Word) :
    ChangesOnly regs { what with i := true } s (t.setI w) := by
  obtain ⟨hv, _, hrest⟩ := h
  exact ⟨hv, nofun, hrest⟩

theorem ChangesOnly.setMem (h : ChangesOnly regs what s t) (m : Memory) :
    ChangesOnly regs { what with mem := true } s (t.setMem m) := by
  obtain ⟨hv, hi, hpc, hdt, hst, hstack, _, hfb, hstatus, henv⟩ := h
  exact ⟨hv, hi, hpc, hdt, hst, hstack, nofun, hfb, hstatus, henv⟩

theorem ChangesOnly.setRegs (h : ChangesOnly regs what s t) {v : Vector Byte 16}
    (hkept : ∀ r : Nibble, ¬ regs r → (t.setRegs v).getV r = t.getV r) :
    ChangesOnly regs what s (t.setRegs v) := by
  obtain ⟨hv, hrest⟩ := h
  exact ⟨fun r hr => (hkept r hr).trans (hv r hr), hrest⟩

end Frames

/-! ### The words that go to `I`, the bytes of a stored block and the registers of a loaded one -/

/-- A sum that 16 bits hold does not wrap. -/
theorem toNat_add_zextByte {w : Word} {b : Byte} (h : w.toNat + b.toNat ≤ 0xFFFF) :
    (w + zextByte b).toNat = w.toNat + b.toNat := by
  rw [BitVec.toNat_add, toNat_zextByte]
  exact Nat.mod_eq_of_lt (Nat.lt_succ_of_le h)

/-- A block in range is read back byte by byte (R57). -/
theorem Memory.read_writeBytes_of_getElem? {bs : List Byte} {m : Memory} {a j : Nat} {b : Byte} (hm : m.wf = true)
    (hr : InRange a bs.length) (hb : bs[j]? = some b) : (m.writeBytes a bs).read (a + j) = b := by
  obtain ⟨hj, rfl⟩ := List.getElem?_eq_some_iff.1 hb
  have hfit : a + bs.length ≤ 0x1000 := ((inRange_iff a bs.length).1 hr).resolve_left (by omega)
  exact Memory.read_writeBytes_inside bs m a j hm hfit hj

/-- The digits of a byte as numbers: three digits that spell the byte are its hundreds, tens and ones (R143). -/
theorem exists_bcdDigits (b : Byte) :
    ∃ h t o : Byte, bcdDigits b = [h, t, o] ∧ h.toNat = b.toNat / 100 ∧ t.toNat = b.toNat / 10 % 10 ∧
      o.toNat = b.toNat % 10 := by
  obtain ⟨h, t, o, hd, _, ht, ho, hspell⟩ := bcdDigits_spell b
  exact ⟨h, t, o, hd, by omega, by omega, by omega⟩

section LoadedRegisters

variable {s : State} {m : Memory} {a n : Nat} {r : Nibble}

theorem getV_loadRegs_readBytes_inside (h : r.toNat < n) :
    (s.setRegs (loadRegs s.v 0 (m.readBytes a n))).getV r = m.read (a + r.toNat) := by
  rw [getV_loadRegs, Memory.getElem?_readBytes m a n _ h, Option.getD_some]

theorem getV_loadRegs_readBytes_outside (h : ¬ r.toNat < n) :
    (s.setRegs (loadRegs s.v 0 (m.readBytes a n))).getV r = s.getV r := by
  have hnone : (m.readBytes a n)[r.toNat]? = none :=
    List.getElem?_eq_none (by rw [Memory.length_readBytes]; exact Nat.not_lt.1 h)
  rw [getV_loadRegs, hnone, Option.getD_none]

end LoadedRegisters

/-! ### One rule for each kind of effect -/

section Rules

variable {s : State} {i : Instr}

/-- An instruction under the condition of its fault answers the state with only `STATUS` changed (R176). -/
theorem Raises.exec_eq {f : Fault} (h : Raises s i f) : exec i s = .next { s with status := .faulted f } := by
  cases h with
  | ret h => exact exec_ret_empty h
  | call nnn h => exact exec_call_full nnn h
  | drw x y n h => exact ((execDrw_cases x y n s).resolve_left fun e => h e.1).2
  | addI x h => exact ((execAddI_cases x s).resolve_left fun e => Nat.not_lt.2 e.1 h).2
  | ldB x h => exact ((execLdB_cases x s).resolve_left fun e => h e.1).2
  | stRegs x h => exact ((execStRegs_cases x s).resolve_left fun e => h e.1).2
  | ldRegs x h => exact ((execLdRegs_cases x s).resolve_left fun e => h e.1).2

theorem LoadsI.exec_eq {w : Word} (h : LoadsI s i w) : exec i s = .next (s.setI w) := by
  cases h with
  | ldI nnn => rfl
  | addI x h => exact ((execAddI_cases x s).resolve_right fun e => Nat.not_lt.2 h e.1).2
  | ldF x => rfl

theorem Stores.exec_eq {bs : List Byte} (h : Stores s i bs) (hr : InRange s.i.toNat bs.length) :
    exec i s = .next (s.setMem (s.mem.writeBytes s.i.toNat bs)) := by
  cases h with
  | ldB x => exact ((execLdB_cases x s).resolve_right fun e => e.1 hr).2
  | stRegs x =>
    rw [State.length_regBlock] at hr
    exact ((execStRegs_cases x s).resolve_right fun e => e.1 hr).2

theorem LoadsI.completes {w : Word} {n : Nat} (h : LoadsI s i w) (hw : w.toNat = n) :
    ∃ t, exec i s = .next t ∧ t.i.toNat = n ∧ ChangesOnly noReg { i := true } s t :=
  ⟨_, h.exec_eq, hw, (ChangesOnly.refl noReg {} s).setI w⟩

theorem Stores.completes {bs : List Byte} (h : Stores s i bs) (hm : s.mem.wf = true)
    (hr : InRange s.i.toNat bs.length) :
    ∃ t, exec i s = .next t ∧
      (∀ (j : Nat) (b : Byte), bs[j]? = some b → t.mem.read (s.i.toNat + j) = b) ∧
      (∀ a : Nat, a < s.i.toNat ∨ s.i.toNat + bs.length ≤ a → t.mem.read a = s.mem.read a) ∧
      ChangesOnly noReg { mem := true } s t :=
  ⟨_, h.exec_eq hr, fun _ _ => Memory.read_writeBytes_of_getElem? hm hr,
    fun a => Memory.read_writeBytes_outside bs s.mem s.i.toNat a, (ChangesOnly.refl noReg {} s).setMem _⟩

variable {x : Nibble}

theorem exec_stRegs_completes (hm : s.mem.wf = true) (hr : InRange s.i.toNat (x.toNat + 1)) :
    ∃ t, exec (.stRegs x) s = .next t ∧
      (∀ k : Nibble, k.toNat ≤ x.toNat → t.mem.read (s.i.toNat + k.toNat) = s.getV k) ∧
      (∀ a : Nat, a < s.i.toNat ∨ s.i.toNat + (x.toNat + 1) ≤ a → t.mem.read a = s.mem.read a) ∧
      ChangesOnly noReg { mem := true } s t := by
  rw [← State.length_regBlock s x] at hr ⊢
  obtain ⟨t, ht, hin, hout, hframe⟩ := (Stores.stRegs x).completes hm hr
  exact ⟨t, ht, fun k hk => hin k.toNat _ (State.getElem?_regBlock s x k hk), hout, hframe⟩

theorem exec_ldRegs_completes (hr : InRange s.i.toNat (x.toNat + 1)) :
    ∃ t, exec (.ldRegs x) s = .next t ∧
      (∀ k : Nibble, k.toNat ≤ x.toNat → t.getV k = s.mem.read (s.i.toNat + k.toNat)) ∧
      ChangesOnly (fun r => r.toNat ≤ x.toNat) {} s t :=
  ⟨_, ((execLdRegs_cases x s).resolve_right fun e => e.1 hr).2,
    fun _ hk => getV_loadRegs_readBytes_inside (Nat.lt_succ_of_le hk),
    (ChangesOnly.refl _ {} s).setRegs fun _ hk => getV_loadRegs_readBytes_outside fun h => hk (Nat.le_of_lt_succ h)⟩

end Rules

/-! ### The stores and the block load (R143 to R146) -/

/-- Settles O51: LD_B stores the three digits of a byte. -/
theorem storeBcdWritesThreeDigits : Obligations.StoreBcdWritesThreeDigits := by
  refine ⟨encodedBy_of_mem_opcodeTable opcodeTable[31] (List.getElem_mem _),
    fun x s => ⟨fun hm hr => ?_, fun h => (Raises.ldB x h).exec_eq⟩⟩
  obtain ⟨hundreds, tens, ones, hdigits, hh, ht, ho⟩ := exists_bcdDigits (s.getV x)
  have hst : Stores s (.ldB x) [hundreds, tens, ones] := hdigits ▸ .ldB x
  obtain ⟨t, he, hin, hout, hframe⟩ := hst.completes hm hr
  exact ⟨t, he, (congrArg BitVec.toNat (hin 0 hundreds rfl)).trans hh,
    (congrArg BitVec.toNat (hin 1 tens rfl)).trans ht, (congrArg BitVec.toNat (hin 2 ones rfl)).trans ho, hout, hframe⟩

/-- Settles O52: ST_REGS stores the register block. -/
theorem storeRegistersWritesTheBlock : Obligations.StoreRegistersWritesTheBlock :=
  ⟨encodedBy_of_mem_opcodeTable opcodeTable[32] (List.getElem_mem _),
    fun x _ => ⟨exec_stRegs_completes, fun h => (Raises.stRegs x h).exec_eq⟩⟩

/-- Settles O53: LD_REGS loads the register block. -/
theorem loadRegistersReadsTheBlock : Obligations.LoadRegistersReadsTheBlock :=
  ⟨encodedBy_of_mem_opcodeTable opcodeTable[33] (List.getElem_mem _),
    fun x _ => ⟨exec_ldRegs_completes, fun h => (Raises.ldRegs x h).exec_eq⟩⟩

/-- Settles O54: ST_REGS keeps `I`, so LD_REGS reads the addresses that hold the stored registers (R146). -/
theorem registerBlockRoundTrip : Obligations.RegisterBlockRoundTrip := by
  intro x s hm hr
  obtain ⟨t, ht, hstored, _, _, hi, _⟩ := exec_stRegs_completes hm hr
  have hti : t.i = s.i := hi rfl
  refine ⟨t, ht, fun v => ?_⟩
  obtain ⟨u, hu, hloaded, _⟩ := exec_ldRegs_completes (s := t.setRegs v) (x := x) (by rwa [State.setRegs_i, hti])
  refine ⟨u, hu, fun k hk => ?_⟩
  rw [hloaded k hk, State.setRegs_mem, State.setRegs_i, hti, hstored k hk]

/-! ### The writes of `I` (R140 to R142) -/

/-- Settles O48: LD_I is one write of `I`. -/
theorem loadIndexWritesI : Obligations.LoadIndexWritesI :=
  ⟨encodedBy_of_mem_opcodeTable opcodeTable[19] (List.getElem_mem _),
    fun nnn _ => (LoadsI.ldI nnn).completes (toNat_zextAddr nnn)⟩

/-- Settles O49: LD_F is one write of `I`, of a product that 16 bits hold. -/
theorem glyphAddressIsFiveTimesTheRegister : Obligations.GlyphAddressIsFiveTimesTheRegister :=
  ⟨encodedBy_of_mem_opcodeTable opcodeTable[30] (List.getElem_mem _),
    fun x s => (LoadsI.ldF x).completes ((toNat_glyphAddr (s.getV x)).trans (Nat.mul_comm _ _))⟩

/-- Settles O50: ADD_I is one write of `I`, of a sum that does not wrap, or faults with the sum. -/
theorem addIndexStoresSixteenBitSums : Obligations.AddIndexStoresSixteenBitSums :=
  ⟨encodedBy_of_mem_opcodeTable opcodeTable[29] (List.getElem_mem _),
    fun x _ => ⟨fun h => (LoadsI.addI x h).completes (toNat_add_zextByte h), fun h => (Raises.addI x h).exec_eq⟩⟩

end Sys2Proof.Machine
end

section
/-! PROOFS. The framebuffer instructions (43_display.md): CLS, one draw of a sprite pixel by pixel, and the same draw
made twice. -/

namespace Sys2Proof.Machine

theorem ChangesOnly.setFb {regs : Nibble → Prop} {what : Touched} {s t : State} (h : ChangesOnly regs what s t)
    (fb : Screen) : ChangesOnly regs { what with fb := true } s (t.setFb fb) := by
  obtain ⟨hv, hi, hpc, hdt, hst, hstack, hmem, _, hstatus, henv⟩ := h
  exact ⟨hv, hi, hpc, hdt, hst, hstack, hmem, nofun, hstatus, henv⟩

/-! ### CLS (R151) -/

theorem Screen.pixel_blank {r : Nat} (hr : r < 32) (c : Nat) :
    Screen.pixel (Vector.replicate 32 0#64) r c = false := by
  simp [Screen.pixel, Screen.row, hr]

/-- Settles O32: CLS is one write of the framebuffer, with the blank screen. -/
theorem clearScreenZeroesTheFramebuffer : Obligations.ClearScreenZeroesTheFramebuffer :=
  ⟨encodedBy_of_mem_opcodeTable opcodeTable[0] (List.getElem_mem _), rfl,
    fun s => ⟨_, rfl, fun _ c hr _ => Screen.pixel_blank hr c, (ChangesOnly.refl noReg {} s).setFb _⟩⟩

/-! ### The sprite at `I`, drawn on any framebuffer (R153 to R155)

The framebuffer is not that of the state which holds the sprite: the second of two draws finds another one. -/

section Sprite

variable {s : State} {fb : Screen} {x0 : Byte} {y0 n r c : Nat}

/-- The sprite has a 1 exactly where the pattern of one of its rows has: the Boolean that `drawRows_pixel` XORs in. -/
theorem spritePixel_iff (hc : c < 64) :
    spritePixel s x0.toNat y0 n r c ↔
      (decide (y0 ≤ r ∧ r < y0 + (s.mem.readBytes s.i.toNat n).length) &&
        (rowPattern ((s.mem.readBytes s.i.toNat n)[r - y0]?.getD 0#8) x0).getMsbD c) = true := by
  rw [Memory.length_readBytes, spritePixel, ← and_assoc, Bool.and_eq_true, decide_eq_true_iff]
  refine and_congr_right fun hrow => ?_
  rw [Memory.getElem?_readBytes _ _ _ _ (by omega), Option.getD_some, rowPattern_pixel _ _ _ hc]

theorem pixel_drawRows_of_spritePixel (hr : r < 32) (hc : c < 64) (h : spritePixel s x0.toNat y0 n r c) :
    Screen.pixel (drawRows fb x0 y0 (s.mem.readBytes s.i.toNat n)).1 r c = !Screen.pixel fb r c := by
  rw [drawRows_pixel _ _ _ _ _ _ hr, (spritePixel_iff hc).1 h, Bool.xor_true]

theorem pixel_drawRows_of_not_spritePixel (hr : r < 32) (hc : c < 64) (h : ¬ spritePixel s x0.toNat y0 n r c) :
    Screen.pixel (drawRows fb x0 y0 (s.mem.readBytes s.i.toNat n)).1 r c = Screen.pixel fb r c := by
  rw [spritePixel_iff hc, Bool.not_eq_true] at h
  rw [drawRows_pixel _ _ _ _ _ _ hr, h, Bool.xor_false]

/-- A drawn pixel is set when it was set outside the sprite or clear under it. -/
theorem pixel_drawRows_iff (hr : r < 32) (hc : c < 64) :
    Screen.pixel (drawRows fb x0 y0 (s.mem.readBytes s.i.toNat n)).1 r c = true ↔
      (Screen.pixel fb r c = true ∧ ¬ spritePixel s x0.toNat y0 n r c) ∨
      (Screen.pixel fb r c = false ∧ spritePixel s x0.toNat y0 n r c) := by
  by_cases h : spritePixel s x0.toNat y0 n r c
  · simp [pixel_drawRows_of_spritePixel hr hc h, h]
  · simp [pixel_drawRows_of_not_spritePixel hr hc h, h]

theorem drawRows_collides_iff :
    (drawRows fb x0 y0 (s.mem.readBytes s.i.toNat n)).2 = true ↔
      ∃ r c : Nat, r < 32 ∧ c < 64 ∧ Screen.pixel fb r c = true ∧ spritePixel s x0.toNat y0 n r c := by
  rw [drawRows_collision]
  refine exists_congr fun r => exists_congr fun c => and_congr_right fun _ => and_congr_right fun hc => ?_
  rw [spritePixel_iff hc, Bool.and_eq_true, decide_eq_true_iff, and_assoc]

end Sprite

/-- XOR is its own inverse. -/
theorem drawRows_twice (fb : Screen) (x0 : Byte) (r : Nat) (bs : List Byte) :
    (drawRows (drawRows fb x0 r bs).1 x0 r bs).1 = fb := by
  refine Screen.ext _ _ fun q c hq _ => ?_
  rw [drawRows_pixel _ _ _ _ _ _ hq, drawRows_pixel _ _ _ _ _ _ hq, Bool.xor_assoc, Bool.xor_self, Bool.xor_false]

/-! ### DRW (R152) -/

/-- The state after a `DRW` that does not fault. -/
def State.drawn (x y n : Nibble) (s : State) : State := (s.setFb (drawnBy x y n s).1).setFlag (drawnBy x y n s).2

section Drw

variable {x y n : Nibble} {s : State}

theorem exec_drw (h : InRange s.i.toNat n.toNat) : exec (.drw x y n) s = .next (s.drawn x y n) :=
  ((execDrw_cases x y n s).resolve_right fun e => e.1 h).2

theorem State.getV_drawn_ne {r : Nibble} (hr : r ≠ 0xF#4) : (s.drawn x y n).getV r = s.getV r := by
  rw [State.drawn, State.getV_setFlag, if_neg hr, State.getV_setFb]

theorem State.getV_drawn_VF : (s.drawn x y n).getV 0xF#4 = flagByte (drawnBy x y n s).2 := by
  rw [State.drawn, State.getV_setFlag, if_pos rfl]

theorem State.drawn_changesOnly : ChangesOnly (regIs 0xF#4) { fb := true } s (s.drawn x y n) :=
  ((ChangesOnly.refl (regIs 0xF#4) {} s).setFb _).setV rfl _

/-- With its coordinates not in `VF`, the same draw again puts the same sprite at the same place, on the framebuffer
the first one left. -/
theorem drawnBy_drawn (hx : x ≠ 0xF#4) (hy : y ≠ 0xF#4) :
    drawnBy x y n (s.drawn x y n) =
      drawRows (drawnBy x y n s).1 (s.getV x) (s.getV y).toNat (s.mem.readBytes s.i.toNat n.toNat) := by
  rw [drawnBy, State.getV_drawn_ne hx, State.getV_drawn_ne hy]
  rfl

end Drw

/-- Settles O33: a draw in range is described pixel by pixel and by its collision; out of range it faults. -/
theorem drawXorsTheSpriteAndReportsCollision : Obligations.DrawXorsTheSpriteAndReportsCollision := by
  refine ⟨encodedBy_of_mem_opcodeTable opcodeTable[22] (List.getElem_mem _),
    fun x y n s => ⟨fun h => ?_, fun h => (Raises.drw x y n h).exec_eq⟩⟩
  refine ⟨s.drawn x y n, exec_drw h, fun r c => pixel_drawRows_iff, ?_, ?_, State.drawn_changesOnly⟩
  · rw [State.getV_drawn_VF]
    cases (drawnBy x y n s).2 with
    | false => exact .inl rfl
    | true => exact .inr rfl
  · rw [State.getV_drawn_VF, flagByte_eq_one]
    exact drawRows_collides_iff

/-- Settles O34: under the sprite, and only there, the second draw meets the complement of the first framebuffer. -/
theorem drawingTwiceRestoresTheFramebuffer : Obligations.DrawingTwiceRestoresTheFramebuffer := by
  intro x y n s hx hy h
  refine ⟨s.drawn x y n, (s.drawn x y n).drawn x y n, exec_drw h, exec_drw h, ?_, ?_⟩
  · exact (congrArg Prod.fst (drawnBy_drawn hx hy)).trans (drawRows_twice s.fb _ _ _)
  · rw [State.getV_drawn_VF, flagByte_eq_one, drawnBy_drawn hx hy, drawRows_collides_iff]
    refine exists_congr fun r => exists_congr fun c => and_congr_right fun hr => and_congr_right fun hc =>
      and_congr_left fun hs => ?_
    rw [drawnBy, pixel_drawRows_of_spritePixel hr hc hs, Bool.not_eq_true']

end Sys2Proof.Machine
end

section
/-! PROOFS. The timer and keypad instructions (44_timers_input.md): one byte moved from or to a timer, a skip on a
sampled key, and the wait for a key. -/

namespace Sys2Proof.Machine

/-! ### Frames of the writes of the timers and of `STATUS`, and of a key sample -/

section Frames

variable {regs : Nibble → Prop} {what : Touched} {s t : State}

theorem ChangesOnly.setDt (h : ChangesOnly regs what s t) (b : Byte) :
    ChangesOnly regs { what with dt := true } s (t.setDt b) := by
  obtain ⟨hv, hi, hpc, _, hrest⟩ := h
  exact ⟨hv, hi, hpc, nofun, hrest⟩

theorem ChangesOnly.setSt (h : ChangesOnly regs what s t) (b : Byte) :
    ChangesOnly regs { what with st := true } s (t.setSt b) := by
  obtain ⟨hv, hi, hpc, hdt, _, hrest⟩ := h
  exact ⟨hv, hi, hpc, hdt, nofun, hrest⟩

theorem ChangesOnly.setStatus (h : ChangesOnly regs what s t) (u : Status) :
    ChangesOnly regs { what with status := true } s (t.setStatus u) := by
  obtain ⟨hv, hi, hpc, hdt, hst, hstack, hmem, hfb, _, henv⟩ := h
  exact ⟨hv, hi, hpc, hdt, hst, hstack, hmem, hfb, nofun, henv⟩

theorem ChangesOnly.keysTaken (h : ChangesOnly regs what s t) :
    ChangesOnly regs { what with env := true } s t.keysTaken := by
  obtain ⟨hv, hi, hpc, hdt, hst, hstack, hmem, hfb, hstatus, _⟩ := h
  exact ⟨hv, hi, hpc, hdt, hst, hstack, hmem, hfb, hstatus, nofun⟩

end Frames

/-! ### The timers (R160 to R162) -/

/-- Settles O55: one register write of `DT`, one write of `DT` and one of `ST`. -/
theorem timerInstructionsMoveOneByte : Obligations.TimerInstructionsMoveOneByte :=
  ⟨encodedBy_of_mem_opcodeTable opcodeTable[25] (List.getElem_mem _),
    encodedBy_of_mem_opcodeTable opcodeTable[27] (List.getElem_mem _),
    encodedBy_of_mem_opcodeTable opcodeTable[28] (List.getElem_mem _),
    fun x s =>
      ⟨(LoadsReg.ldVxDt x).completes (P := (· = s.dt)) rfl,
        ⟨_, rfl, rfl, (ChangesOnly.refl noReg {} s).setDt _⟩,
        ⟨_, rfl, rfl, (ChangesOnly.refl noReg {} s).setSt _⟩⟩⟩

/-! ### The skips on a sampled key (R163, R164, R166, R188) -/

/-- The level of the key that the low nibble of a byte names (R166). -/
theorem State.keyDown_keyOf (s : State) (b : Byte) :
    s.keyDown (keyOf b) = s.keyLevels.getLsbD (b.toNat % 16) := by
  rw [State.keyDown, toNat_keyOf]

/-- The levels that input `KEYS` shows are the sample the environment lists next (R188). -/
theorem State.keyLevels_of_samples {s : State} {ks : BitVec 16} {rest : List (BitVec 16)}
    (h : s.env.keySamples = ks :: rest) : s.keyLevels = ks := by
  simp only [State.keyLevels, h]

section KeySkips

variable {s : State} {i : Instr} {c : Bool}

theorem SkipsOnKey.exec_eq (h : SkipsOnKey s i c) : exec i s = .next (s.keysTaken.skipIf c) := by
  cases h with
  | skp => rfl
  | sknp => rfl

/-- A skip on a key ends at the `PC` that its condition selects, with one sample taken. -/
theorem SkipsOnKey.completes {w : Word} (h : SkipsOnKey s i c) (hw : (if c then s.pc + 2#16 else s.pc) = w) :
    ∃ t, exec i s = .next t ∧ t.pc = w ∧
      t.env = { s.env with keySamples := s.env.keySamples.tail, keyCount := s.env.keyCount + 1 } ∧
      ChangesOnly noReg { pc := true, env := true } s t :=
  ⟨_, h.exec_eq, hw, rfl, (ChangesOnly.refl noReg {} s).keysTaken.skipIf c⟩

end KeySkips

/-- Settles O56: SKP and SKNP are skips on the level of one key and on its negation. -/
theorem keySkipsSampleOneKey : Obligations.KeySkipsSampleOneKey :=
  ⟨encodedBy_of_mem_opcodeTable opcodeTable[23] (List.getElem_mem _),
    encodedBy_of_mem_opcodeTable opcodeTable[24] (List.getElem_mem _),
    fun x s =>
      ⟨(SkipsOnKey.skp x).completes (by rw [State.keyDown_keyOf]),
        (SkipsOnKey.sknp x).completes
          (by simp only [State.keyDown_keyOf, Bool.not_eq_true', ← Bool.not_eq_true, ite_not]),
        fun _ _ => State.keyLevels_of_samples⟩⟩

/-! ### The wait for a key (R165, R184) -/

/-- Settles O57: LD_VX_K is one write of `STATUS`. -/
theorem awaitKeyOnlySetsTheStatus : Obligations.AwaitKeyOnlySetsTheStatus :=
  ⟨encodedBy_of_mem_opcodeTable opcodeTable[26] (List.getElem_mem _),
    fun _ s => ⟨_, rfl, rfl, (ChangesOnly.refl noReg {} s).setStatus _⟩⟩

section Waiting

variable {s : State} {x : Nibble}

theorem notFaulted_of_awaitKey (h : s.status = .awaitKey x) : NotFaulted s := by
  intro f hf
  cases h.symm.trans hf

theorem tick_awaitKey (h : s.status = .awaitKey x) : tick s = s := by
  refine tick_stopped s fun hs => ?_
  cases h.symm.trans hs

theorem State.outcome_awaitKey (h : s.status = .awaitKey x) : s.outcome = .awaitingInput := by
  simp only [State.outcome, h]

end Waiting

/-- Settles O10: `Step` and `Tick` leave a waiting machine as it is, and with no event listed it takes a `Step`. -/
theorem awaitKeyFreezesStepAndTick : Obligations.AwaitKeyFreezesStepAndTick := fun s x hs =>
  ⟨stepEvent_awaitKey s x hs, tick_awaitKey hs, State.outcome_awaitKey hs, fun h =>
    (step_unlisted_live h (notFaulted_of_awaitKey hs)).trans (stepEvent_awaitKey s x hs)⟩

end Sys2Proof.Machine
end

section
/-! PROOFS. The faults, the other events and the framebuffer notification (60_exceptions.md): what raises a fault and
what it leaves, what a faulted machine does with an event, Tick and KeyPress, and when a `Step` reports `fb_touched`. -/

namespace Sys2Proof.Machine

/-! ### The instructions that fault (R172 to R176) -/

/-- Of the effects on a machine that is not `FAULTED`, only a raised fault ends in that status. -/
theorem Effect.raises {i : Instr} {s t : State} {f : Fault} (hE : Effect s i t) (hs : NotFaulted s)
    (ht : t.status = .faulted f) : Raises s i f := by
  cases hE with
  | fault h =>
    obtain rfl := Status.faulted.inj ht
    exact h
  | ldVxK => cases ht
  | _ => exact absurd ht (hs f)

/-- Settles O12: the instruction raised the fault, and a raised fault writes `STATUS` alone. -/
theorem faultDiscardsEveryWrite : Obligations.FaultDiscardsEveryWrite := by
  intro i s t f hs h ht
  have hraises : Raises s i f := (effect_of_exec h).raises hs ht
  exact Host.Outcome.next.inj (h.symm.trans hraises.exec_eq)

/-- Settles O13: the faults and their conditions, one for each instruction that can raise one. -/
theorem whichInstructionRaisesWhat : Obligations.WhichInstructionRaisesWhat := by
  intro i s t f hs h ht
  cases (effect_of_exec h).raises hs ht with
  | ret hsp => exact .inl ⟨rfl, hsp, rfl⟩
  | call nnn hsp => exact .inr (.inl ⟨⟨nnn, rfl⟩, hsp, rfl⟩)
  | drw x y n hr => exact .inr (.inr (.inl ⟨⟨x, y, n, rfl, hr⟩, rfl⟩))
  | ldB x hr => exact .inr (.inr (.inr (.inl ⟨⟨x, rfl⟩, hr, rfl⟩)))
  | stRegs x hr => exact .inr (.inr (.inr (.inr (.inl ⟨⟨x, .inl rfl, hr⟩, rfl⟩))))
  | ldRegs x hr => exact .inr (.inr (.inr (.inr (.inl ⟨⟨x, .inr rfl, hr⟩, rfl⟩))))
  | addI x hsum => exact .inr (.inr (.inr (.inr (.inr ⟨x, rfl, hsum, rfl⟩))))

/-! ### The decode failure (R171) -/

/-- Settles O8: the dispatch raises the decode failure on the advanced state, and where the fetch succeeds the advance
does not wrap. -/
theorem illegalWordFaultsWithItsValue : Obligations.IllegalWordFaultsWithItsValue := by
  intro s hs hpc hnone
  obtain ⟨_, _, _, hreject⟩ := opcodeMapDecidesTheDecode
  obtain ⟨e, he⟩ := hreject (wordAtPc s) hnone
  have hstep : stepEvent s = s.advance.raise (.decodeFailure (wordAtPc s)) :=
    (stepEvent_fetched s hs hpc).trans (dispatchWord_error _ e _ he)
  exact ⟨_, hstep, rfl, toNat_advance s (by omega), rfl, rfl⟩

/-! ### A faulted machine (R177) -/

section Faulted

variable {s : State} {f : Fault}

theorem tick_faulted (h : s.status = .faulted f) : tick s = s := by
  refine tick_stopped s fun hs => ?_
  cases h.symm.trans hs

theorem keyPress_faulted (h : s.status = .faulted f) (k : Nibble) : keyPress k s = s := by
  refine keyPress_other k s fun x hs => ?_
  cases h.symm.trans hs

theorem State.outcome_faulted (h : s.status = .faulted f) : s.outcome = .fault f := by
  simp only [State.outcome, h]

/-- Every event but a Reset leaves a faulted machine as it is. -/
theorem deliver_faulted {e : Event} (he : ∀ font image, e ≠ .reset font image) (h : s.status = .faulted f) :
    deliver e s = .next s := by
  cases e with
  | step => exact stepEvent_faulted s f h
  | tick => exact congrArg Host.Outcome.next (tick_faulted h)
  | keyPress k => exact congrArg Host.Outcome.next (keyPress_faulted h k)
  | reset font image => exact absurd rfl (he font image)

theorem step_unlisted_faulted (hsch : s.env.schedule = []) (h : s.status = .faulted f) : step s = .fault f :=
  (step_unlisted s hsch).trans (stepUnlisted_faulted s f h)

theorem step_listed_faulted {e : Event} {rest : List Event} (hsch : s.env.schedule = e :: rest)
    (he : ∀ font image, e ≠ .reset font image) (h : s.status = .faulted f) :
    step s = .next (s.setEnv { s.env with schedule := rest }) :=
  (step_listed s e rest hsch).trans (deliver_faulted (s := s.setEnv _) he h)

end Faulted

/-- Settles O9: an event that is not a Reset changes nothing beside the schedule, and without one the run ends. -/
theorem faultedStatusIsAbsorbing : Obligations.FaultedStatusIsAbsorbing := by
  intro s f h
  refine ⟨stepEvent_faulted s f h, tick_faulted h, keyPress_faulted h, State.outcome_faulted h,
    fun hsch => step_unlisted_faulted hsch h, fun t ht hhead => ?_⟩
  cases hsch : s.env.schedule with
  | nil => cases (step_unlisted_faulted hsch h).symm.trans ht
  | cons e rest =>
    have he : ∀ font image, e ≠ .reset font image := by
      rintro font image rfl
      exact hhead font image (by rw [hsch, List.head?_cons])
    obtain rfl := Host.Outcome.next.inj ((step_listed_faulted hsch he h).symm.trans ht)
    exact h

/-! ### Tick and KeyPress (R183, R185) -/

/-- Settles O20: a Tick is one write of `DT` and one of `ST`. -/
theorem tickDecrementsBothTimers : Obligations.TickDecrementsBothTimers := by
  refine ⟨fun s hs => ?_, tick_stopped⟩
  rw [tick_running s hs]
  exact ⟨toNat_countDown s.dt, toNat_countDown s.st, ((ChangesOnly.refl noReg {} s).setDt _).setSt _⟩

/-- Settles O21: a KeyPress that ends a wait is one register write and one write of `STATUS`. -/
theorem keyPressEndsTheWait : Obligations.KeyPressEndsTheWait := by
  refine ⟨fun s x k hs => ?_, fun s k => keyPress_other k s⟩
  rw [keyPress_waiting k x s hs]
  refine ⟨?_, rfl, ((ChangesOnly.refl (regIs x) {} s).setV rfl _).setStatus _⟩
  rw [State.getV_setStatus, State.getV_setV_same, toNat_zextKey]

/-! ### The framebuffer notification (R187) -/

theorem touchesFb_iff (i : Instr) : touchesFb i = true ↔ i = .cls ∨ ∃ x y n, i = .drw x y n := by
  constructor
  · intro h
    cases i with
    | cls => exact .inl rfl
    | drw x y n => exact .inr ⟨x, y, n, rfl⟩
    | _ => cases h
  · rintro (rfl | ⟨x, y, n, rfl⟩) <;> rfl

theorem notFaulted_next (t : State) : notFaulted (.next t) = true ↔ NotFaulted t := by
  cases hs : t.status with
  | faulted f => simp [notFaulted, NotFaulted, hs]
  | running => simp [notFaulted, NotFaulted, hs]
  | awaitKey x => simp [notFaulted, NotFaulted, hs]

theorem notFaulted_iff (o : Out) : notFaulted o = true ↔ ∃ t, o = .next t ∧ NotFaulted t := by
  cases o with
  | next t => simp [notFaulted_next]
  | fault f => simp [notFaulted]
  | refused r => simp [notFaulted]

theorem toOption_eq_some_iff {α β : Type} (o : Except α β) (b : β) : o.toOption = some b ↔ o = .ok b := by
  cases o with
  | ok a => simp [Except.toOption]
  | error e => simp [Except.toOption]

/-- The instruction a `Step` executes is the decode of the word at `PC`. -/
theorem fetchedInstr_eq_some_iff (s : State) (i : Instr) :
    fetchedInstr s = some i ↔ s.status = .running ∧ s.pc.toNat ≤ 0xFFE ∧ decodeWord (wordAtPc s) = .ok i := by
  constructor
  · intro h
    unfold fetchedInstr at h
    split at h
    · next ins hs hf =>
      obtain ⟨hpc, rfl⟩ := (memRead2_ok _ _ ins).1 hf
      exact ⟨hs, hpc, (toOption_eq_some_iff _ i).1 h⟩
    · cases h
  · rintro ⟨hs, hpc, hd⟩
    have hf : fetch s = .ok (wordAtPc s) := (memRead2_ok _ _ _).2 ⟨hpc, rfl⟩
    simp [fetchedInstr, hs, hf, toOption_eq_some_iff, hd]

theorem fbTouched_iff (s : State) :
    fbTouched s = true ↔ ∃ i, fetchedInstr s = some i ∧ touchesFb i = true ∧ notFaulted (stepEvent s) = true := by
  cases h : fetchedInstr s with
  | none => simp [fbTouched, h]
  | some i => simp [fbTouched, h]

/-- Settles O25: the notification, its three tests read as what they test. -/
theorem framebufferNotificationMarksClsAndDrw : Obligations.FramebufferNotificationMarksClsAndDrw := by
  intro s
  rw [fbTouched_iff]
  constructor
  · rintro ⟨i, hi, htouch, hnot⟩
    obtain ⟨hs, hpc, hd⟩ := (fetchedInstr_eq_some_iff s i).1 hi
    obtain ⟨t, ht, hlive⟩ := (notFaulted_iff _).1 hnot
    exact ⟨hs, hpc, i, t, hd, (touchesFb_iff i).1 htouch, ht, hlive⟩
  · rintro ⟨hs, hpc, i, t, hd, htouch, ht, hlive⟩
    exact ⟨i, (fetchedInstr_eq_some_iff s i).2 ⟨hs, hpc, hd⟩, (touchesFb_iff i).2 htouch,
      (notFaulted_iff _).2 ⟨t, ht, hlive⟩⟩

end Sys2Proof.Machine
end

section
/-! PROOFS. Reset (70_reset_and_hazards.md section 1): when `construct` answers, what the memory it loads reads, and
the zeros of the reset state. -/

namespace Sys2Proof.Machine

/-! ### When a Reset answers (R200, R202) -/

theorem construct_of_length_le (font : Vector Byte 80) {image : List Byte} (env : Env)
    (h : image.length ≤ Config.maxImage) :
    construct font image env = some ((State.reset.setMem (loadedMemory font image)).setEnv env) :=
  if_pos h

theorem construct_of_maxImage_lt (font : Vector Byte 80) {image : List Byte} (env : Env)
    (h : Config.maxImage < image.length) : construct font image env = none :=
  if_neg (Nat.not_le_of_lt h)

/-- Settles O23: `construct` gives no state, and the step names the refusal. -/
theorem oversizedImageIsRefused : Obligations.OversizedImageIsRefused := by
  intro s font image rest hsch hlen
  obtain ⟨_, _, _, _, hrefused, _⟩ := listedEventsHappenInOrder
  exact hrefused s font image rest hsch (construct_of_maxImage_lt font _ hlen)

/-! ### What the loaded memory reads (R201) -/

/-- Above the FONT an unlisted address reads 0 (R37). -/
theorem Memory.resetByte_of_font_le {a : Nat} (h : 0x50 ≤ a) : Memory.resetByte a = 0#8 :=
  if_neg (Nat.not_lt_of_le h)

section LoadedMemory

variable {font : Vector Byte 80} {image : List Byte}

/-- FONT lies below the image, whose bytes leave it alone. -/
theorem read_loadedMemory_font {j : Nat} (hj : j < 80) :
    font[j]? = some ((loadedMemory font image).read j) := by
  have hlen : font.toList.length = 80 := Vector.length_toList
  have hbelow : j < Config.progBase := Nat.lt_trans hj (by decide)
  have hread : (loadedMemory font image).read j = font[j] :=
    calc (loadedMemory font image).read j
        = (Memory.writeBytes [] 0 font.toList).read j := Memory.read_writeBytes_outside _ _ _ _ (.inl hbelow)
      _ = (Memory.writeBytes [] 0 font.toList).read (0 + j) := by rw [Nat.zero_add]
      _ = font.toList[j] := Memory.read_writeBytes_inside _ _ _ _ Memory.wf_nil (by omega) (by omega)
      _ = font[j] := Vector.getElem_toList _
  rw [hread, Vector.getElem?_eq_getElem hj]

theorem read_loadedMemory_image (hlen : image.length ≤ Config.maxImage) {j : Nat} (hj : j < image.length) :
    image[j]? = some ((loadedMemory font image).read (0x200 + j)) := by
  have hfont : (Memory.writeBytes [] 0 font.toList).wf = true := wf_loadedMemory font [] (Nat.zero_le _)
  have hfit : Config.progBase + image.length ≤ 0x1000 := Nat.add_le_add_left hlen 0x200
  rw [List.getElem?_eq_getElem hj]
  exact congrArg some (Memory.read_writeBytes_inside image _ _ j hfont hfit hj).symm

/-- Between FONT and the image and past the image nothing is written. -/
theorem read_loadedMemory_elsewhere {a : Nat} (ha : (0x50 ≤ a ∧ a < 0x200) ∨ 0x200 + image.length ≤ a) :
    (loadedMemory font image).read a = 0#8 := by
  have hlen : font.toList.length = 80 := Vector.length_toList
  have himage : a < Config.progBase ∨ Config.progBase + image.length ≤ a := ha.imp_left And.right
  calc (loadedMemory font image).read a
      = (Memory.writeBytes [] 0 font.toList).read a := Memory.read_writeBytes_outside _ _ _ _ himage
    _ = Memory.read [] a := Memory.read_writeBytes_outside _ _ _ _ (by omega)
    _ = 0#8 := Memory.resetByte_of_font_le (by omega)

end LoadedMemory

/-! ### The zeros of the reset state (R37) -/

@[simp] theorem State.getV_reset (r : Nibble) : State.reset.getV r = 0#8 :=
  Vector.getElem_replicate r.isLt

theorem State.getElem?_reset_stack {j : Nat} (hj : j < 16) : State.reset.stack[j]? = some 0#16 := by
  simp [State.reset, hj]

/-- Settles O22: the step is the constructed state, which is the reset state with the loaded memory and the
environment put in. -/
theorem resetLoadsFontAndImage : Obligations.ResetLoadsFontAndImage := by
  intro s font image rest hsch hlen
  obtain ⟨_, _, _, hloaded, _⟩ := listedEventsHappenInOrder
  have hstep := hloaded s _ font image rest hsch (construct_of_length_le font _ hlen)
  exact ⟨_, hstep, rfl, rfl, State.getV_reset, rfl, rfl, rfl, rfl, fun _ => State.getElem?_reset_stack,
    fun _ c hr _ => Screen.pixel_blank hr c, fun _ => read_loadedMemory_font,
    fun _ => read_loadedMemory_image hlen, fun _ => read_loadedMemory_elsewhere, rfl⟩

end Sys2Proof.Machine
end
